-- ==== Sys2Proof/Word.lean ====
section
/-! DEFINITION. The bit vectors of the block (spec/00_scope.md R5, R7): a codeword or port byte, a nibble, a syndrome.
Bit `i` of `v` (the spec's `v[i]`) is `v.getLsbD i`, bit 0 least significant; a 1-bit value is a `Bool`, `true` being 1 (log 12). -/

namespace Sys2Proof

/-- An 8-bit value: a codeword, or what stands on `enc_in`, `enc_out` or `dec_in` (R5, R23). -/
abbrev Byte := BitVec 8

/-- A 4-bit value: the payload (R5, R62). -/
abbrev Nibble := BitVec 4

/-- The 3-bit syndrome (R5, R133). -/
abbrev Syndrome := BitVec 3

end Sys2Proof
end

