-- ==== Sys2Proof/Config.lean ====
section
/-! DEFINITION. What is fixed for the hardware (spec/00_scope.md R5: the shape of the code, "not a parameter") and the one
value the spec leaves open (R6, `ERR_NIBBLE`). `K`, `N` and `SYN_W` of R5 are the widths of `Nibble`, `Byte` and `Syndrome`; the
machine's functions write the positions out as the rules do, and statements name them from here. -/

namespace Sys2Proof.Config

/-- `POS_OVERALL` (R5): the codeword position of the overall parity bit. -/
def posOverall : Nat := 0

/-- `POS_PARITY` (R5): the positions of the Hamming parity bits, in the order they are processed. -/
def posParity : List Nat := [1, 2, 4]

/-- `POS_DATA` (R5): the positions of nibble bits 0, 1, 2, 3, in that order. -/
def posData : List Nat := [3, 5, 6, 7]

/-- `ERR_NIBBLE` (R6, R161; U1, D6), the value on `dec_nibble` when `dec_ok = 0`: a free value, "a function from the 8-bit
input to a 4-bit value about which nothing may be assumed". It has no body, so no proof can rest on a value of it.
DESIGN CHOICE (log 5): the function form, not a fresh draw at each evaluation; unsafe for claims that compare two failing evaluations. -/
opaque errNibble : Byte → Nibble

end Sys2Proof.Config
end

