-- ==== Sys2Proof/Syntax.lean ====
section
/-! DEFINITION. The operations (spec/opcode_table.json, one constructor a row; spec/30_encoding.md R70) and the places a value
can be presented on. Each operation has one operand form, one 8-bit vector (R71). -/

namespace Sys2Proof

/-- The operations of the table. There is no parity tree for any other position: "a parity function for any other position
cannot be written down" (R98, U4). -/
inductive Instr where
  /-- `ENC(enc_in)`, R110. The operand is the whole byte on `enc_in`; bits 7:4 are ignored by the meaning (R61). -/
  | enc (x : Byte)
  /-- `DEC(dec_in)`, R130. -/
  | dec (c : Byte)
  /-- `PAR1(w)`, R91. -/
  | par1 (w : Byte)
  /-- `PAR2(w)`, R92. -/
  | par2 (w : Byte)
  /-- `PAR4(w)`, R93. -/
  | par4 (w : Byte)
  /-- `PAR0(w)`, R94. -/
  | par0 (w : Byte)
  deriving DecidableEq, Repr

/-- The four parity trees (R2 (c)). -/
inductive Tree where
  | par1 | par2 | par4 | par0
  deriving DecidableEq, Repr

/-- Where a value is presented, which is what selects the operation (R70): one of the two input ports, or, inside the block,
the operand of a parity tree, which has no port of its own (D8; log 6). -/
inductive Site where
  | encIn
  | decIn
  | tree (t : Tree)
  deriving DecidableEq, Repr

/-- One act of presenting a value (R193): the place and the 8-bit value. -/
structure Stimulus where
  site  : Site
  value : Byte
  deriving DecidableEq, Repr

end Sys2Proof
end

