-- ==== Sys2Proof/WellFormed.lean ====
section
/-! DEFINITION. What is well-formed. Every operand of every operation is legal (spec/30_encoding.md R71 to R74), so no
instruction term is ill-formed; what can be ill-formed is the model's own written form of a stimulus (log 7): two bytes, the
operand and the number of the place it is presented on. -/

namespace Sys2Proof

/-- How many places a value can be presented on: one for each row of spec/opcode_table.json. -/
def siteCount : Nat := 6

/-- Every instruction is well-formed: "All 256 values ... are legal" (R72, R73), none is reserved (R74), and an operand of the
wrong size cannot occur (R42). -/
def Instr.wellFormed : Instr → Bool
  | .enc _  => true
  | .dec _  => true
  | .par1 _ => true
  | .par2 _ => true
  | .par4 _ => true
  | .par0 _ => true

/-- The written form of one stimulus: exactly an operand byte and a place's number below `siteCount` (DESIGN CHOICE, log 7). -/
def wellFormedBytes : List Byte → Bool
  | [_, n] => decide (n.toNat < siteCount)
  | _      => false

end Sys2Proof
end

