-- ==== Sys2Proof/Decode.lean ====
section
/-! DEFINITION. Which operation a presented value selects (spec/30_encoding.md R70: "a decoder of operations is the identity on
the port name"), the inverse, and the model's own written form in bytes (DESIGN CHOICE, log 7), which the spec does not have:
the block has no opcode bits (R70, D20). -/

namespace Sys2Proof

/-- The operation selected by presenting a value on a place (R70). Total: every value selects one (R72, R73). -/
def decode (st : Stimulus) : Instr :=
  match st.site with
  | .encIn      => .enc st.value
  | .decIn      => .dec st.value
  | .tree .par1 => .par1 st.value
  | .tree .par2 => .par2 st.value
  | .tree .par4 => .par4 st.value
  | .tree .par0 => .par0 st.value

/-- Where an operation's operand is presented (R70). -/
def siteOf : Instr → Site
  | .enc _  => .encIn
  | .dec _  => .decIn
  | .par1 _ => .tree .par1
  | .par2 _ => .tree .par2
  | .par4 _ => .tree .par4
  | .par0 _ => .tree .par0

/-- An operation's operand, the byte laid out as the table's "encoding" column says (R61, R63, R71). -/
def operandOf : Instr → Byte
  | .enc x  => x
  | .dec c  => c
  | .par1 w => w
  | .par2 w => w
  | .par4 w => w
  | .par0 w => w

/-- The stimulus that evaluates an operation: the encoder of `decode`. -/
def encode (i : Instr) : Stimulus := ⟨siteOf i, operandOf i⟩

/-- Why bytes are not the written form of stimuli (log 7). Nothing here is behaviour of the block, which refuses nothing. -/
inductive Reject where
  /-- An operand byte or a place's number is missing. -/
  | truncated
  /-- The second byte numbers no place. -/
  | noSuchSite
  deriving DecidableEq, Repr

/-- The number of a place in the written form: the index of the operation's row in spec/opcode_table.json (DESIGN CHOICE, log 7). -/
def siteNumber : Site → Byte
  | .encIn      => 0
  | .decIn      => 1
  | .tree .par1 => 2
  | .tree .par2 => 3
  | .tree .par4 => 4
  | .tree .par0 => 5

/-- The place a number stands for, if any. -/
def siteOfNumber (n : Byte) : Option Site :=
  if n = 0 then some .encIn
  else if n = 1 then some .decIn
  else if n = 2 then some (.tree .par1)
  else if n = 3 then some (.tree .par2)
  else if n = 4 then some (.tree .par4)
  else if n = 5 then some (.tree .par0)
  else none

/-- The first stimulus written in a list of bytes, and the bytes after it. Total, rejecting by name. -/
def stimulusOfBytes : List Byte → Except Reject (Stimulus × List Byte)
  | v :: n :: rest =>
    match siteOfNumber n with
    | some site => .ok (⟨site, v⟩, rest)
    | none      => .error .noSuchSite
  | _ => .error .truncated

/-- The first operation written in a list of bytes, and the bytes after it. -/
def decodeBytes (bs : List Byte) : Except Reject (Instr × List Byte) :=
  match stimulusOfBytes bs with
  | .ok (st, rest) => .ok (decode st, rest)
  | .error r       => .error r

/-- The written form of a stimulus: the operand byte, then the place's number. -/
def bytesOfStimulus (st : Stimulus) : List Byte := [st.value, siteNumber st.site]

/-- The written form of an operation. -/
def encodeBytes (i : Instr) : List Byte := bytesOfStimulus (encode i)

/-- All operations written in a list of bytes, one after the other, each of the one length (R60). -/
def decodeStream : List Byte → Except Reject (List Instr)
  | [] => .ok []
  | v :: n :: rest =>
    match siteOfNumber n with
    | none      => .error .noSuchSite
    | some site =>
      match decodeStream rest with
      | .ok is   => .ok (decode ⟨site, v⟩ :: is)
      | .error r => .error r
  | [_] => .error .truncated

/-- The written form of a sequence of operations. -/
def encodeStream (is : List Instr) : List Byte := is.flatMap encodeBytes

/-- The written form numbered as the host numbers it: bits 7 to 0 the operand byte, bits 15 to 8 the place's number, every bit
from `nbits` on zero. A number that does not fit two bytes is none. The table gives every row the 8 operand bits and no
opcode bits, so a word of 8 bits alone has place 0, `enc_in` (log 7). -/
def stimulusOfWord (nbits w : Nat) : Option Stimulus :=
  let v := w % 2 ^ nbits
  if v < 2 ^ 16 then
    match stimulusOfBytes [BitVec.ofNat 8 v, BitVec.ofNat 8 (v / 2 ^ 8)] with
    | .ok (st, _) => some st
    | .error _    => none
  else none

/-- The operation the decoder reads from a word of the host's numbering. -/
def decodeTableWord (nbits w : Nat) : Option Instr :=
  match stimulusOfWord nbits w with
  | some st => some (decode st)
  | none    => none

end Sys2Proof
end

