-- ==== Sys2Proof/Machine/State.lean ====
section
/-! DEFINITION. The state of the model. The block itself has none: its state type is the unit type (spec/10_state.md R20), and
that is State's field `block`, all an operation may carry over to the next. The other fields are outside the block's state:
the values on its five ports (R23), grouped by unit, what stands at the model's stand-alone parity trees, which are internal
and have no port (log 6), and the stimuli the environment has yet to present (R193; log 3). A port's value stands there "for
as long as the inputs hold their present values" (spec/00_scope.md R8; log 1). -/

namespace Sys2Proof.Machine

/-- "A model's machine state type for this block is the unit type (one value); all content is in the input and output values of
each operation" (R20). -/
abbrev BlockState := Unit

/-- The function-level result of `DEC`: "a result type with no nibble in the failure case" (R161, C5). -/
inductive DecResult where
  /-- `ok(n)`: the recovered nibble. -/
  | ok (n : Nibble)
  /-- `err`: `TwoErrorsDetected`. -/
  | err
  deriving DecidableEq, Repr

/-- The encoder unit's ports (R23). -/
structure EncUnit where
  encIn  : Byte
  encOut : Byte
  deriving DecidableEq, Repr

/-- The decoder unit's ports (R23). `decOk = false` is `TwoErrorsDetected`; `decNibble` then means nothing (R161, R199). -/
structure DecUnit where
  decIn     : Byte
  decNibble : Nibble
  decOk     : Bool
  deriving DecidableEq, Repr

/-- A parity tree by itself: the vector at its inputs and its 1-bit result (R91 to R94). Internal wires, not ports (R70, D8). -/
structure TreeNode where
  w   : Byte
  bit : Bool
  deriving DecidableEq, Repr

/-- The block's own state, which is the unit type, then what stands outside it: the values on the ports, at the internal trees,
and the environment's stimuli still to come, oldest first. -/
structure State where
  block   : BlockState
  enc     : EncUnit
  dec     : DecUnit
  par1    : TreeNode
  par2    : TreeNode
  par4    : TreeNode
  par0    : TreeNode
  pending : List Stimulus
  deriving DecidableEq, Repr

/-- The model starts with every input at 0x00, every output at the value of its function there (`ENC(0x00) = 0x00`,
`DEC(0x00) = ok(0x0)`, every tree 0) and nothing pending. DESIGN CHOICE (log 2), unsafe: the block has no reset (R29, R190)
and the spec says nothing of the outputs before the inputs are driven. -/
def State.reset : State where
  block   := ()
  enc     := ⟨0x00#8, 0x00#8⟩
  dec     := ⟨0x00#8, 0x0#4, true⟩
  par1    := ⟨0x00#8, false⟩
  par2    := ⟨0x00#8, false⟩
  par4    := ⟨0x00#8, false⟩
  par0    := ⟨0x00#8, false⟩
  pending := []

/-- No fault exists: "There is no behaviour in this hardware that a model should treat as `fault`" (93_implementation_defined.md);
`TwoErrorsDetected` is a result value (R160, R164) and a next state here. Nobody raises a fault, which is safe. -/
inductive Fault where
  deriving DecidableEq, Repr

/-- Why the model has no meaning for an operation. -/
inductive Refusal where
  /-- Raised by `exec` for an operation with no meaning yet; safe. No arm of this model raises it. -/
  | notModelled (mnemonic : String)
  deriving DecidableEq, Repr

end Sys2Proof.Machine
end

