-- ==== Sys2Proof/Machine/Operands.lean ====
section
/-! DEFINITION. The bit helpers and the operand forms (spec/30_encoding.md R61 to R65; spec/00_scope.md R8). -/

namespace Sys2Proof.Machine

/-- `1 << i` at width `k` (R8). -/
def oneHot (k i : Nat) : BitVec k := 1#k <<< i

/-- `v[i] = b`: bit `i` becomes `b`, every other bit stays. -/
def setBit {k : Nat} (v : BitVec k) (i : Nat) (b : Bool) : BitVec k :=
  (v &&& ~~~ oneHot k i) ||| (if b then oneHot k i else 0#k)

/-- `w ^ (1 << i)`: position `i` flipped. `DEC`'s correction (R135) and the environment's `FLIP(w, i)` (R75). -/
def flipBit (w : Byte) (i : Nat) : Byte := w ^^^ oneHot 8 i

/-- The nibble of `ENC`'s operand, `enc_in[3:0]`; bits 7:4 are not read (R61). -/
def lowNibble (x : Byte) : Nibble := x.extractLsb' 0 4

/-- `zext_8(n)`, the byte view of a nibble (R62). -/
def zext8 (n : Nibble) : Byte := n.setWidth 8

/-- `scatter` (R64): nibble bits 0, 1, 2, 3 to positions 3, 5, 6, 7; the parity placeholders are 0. -/
def scatter (n : Nibble) : Byte :=
  setBit (setBit (setBit (setBit 0#8 3 (n.getLsbD 0)) 5 (n.getLsbD 1)) 6 (n.getLsbD 2)) 7 (n.getLsbD 3)

/-- `gather` (R65): positions 3, 5, 6, 7 to nibble bits 0, 1, 2, 3. -/
def gather (w : Byte) : Nibble :=
  setBit (setBit (setBit (setBit 0#4 0 (w.getLsbD 3)) 1 (w.getLsbD 5)) 2 (w.getLsbD 6)) 3 (w.getLsbD 7)

end Sys2Proof.Machine
end

