-- ==== Sys2Proof/Machine/Trees.lean ====
section
/-! DEFINITION. The four parity-tree functions (spec/40_parity_trees.md R91 to R94) and the covering rule they come from (R90). -/

namespace Sys2Proof.Machine

/-- The covering rule (R90, as 90_conflicts.md C1 corrects it): position `p` covers data position `d` exactly when
`(d AND p) != 0`. -/
def covers (p d : Nat) : Bool := (d &&& p) != 0

/-- `PAR1` (R91). -/
def parity1 (w : Byte) : Bool := w.getLsbD 3 ^^ w.getLsbD 5 ^^ w.getLsbD 7

/-- `PAR2` (R92). -/
def parity2 (w : Byte) : Bool := w.getLsbD 3 ^^ w.getLsbD 6 ^^ w.getLsbD 7

/-- `PAR4` (R93). -/
def parity4 (w : Byte) : Bool := w.getLsbD 5 ^^ w.getLsbD 6 ^^ w.getLsbD 7

/-- `PAR0` (R94): positions 1 to 7, parity positions included, position 0 not. -/
def parity0 (w : Byte) : Bool :=
  w.getLsbD 1 ^^ w.getLsbD 2 ^^ w.getLsbD 3 ^^ w.getLsbD 4 ^^ w.getLsbD 5 ^^ w.getLsbD 6 ^^ w.getLsbD 7

/-- The function of each tree. -/
def treeValue : Tree → Byte → Bool
  | .par1 => parity1
  | .par2 => parity2
  | .par4 => parity4
  | .par0 => parity0

end Sys2Proof.Machine
end

