-- ==== Sys2Proof/Machine/Flags.lean ====
section
/-! DEFINITION. The checks of `DEC` (spec/42_decoder.md R132, R133): what its one status output `dec_ok` (spec/10_state.md R24) is
computed from. They are internal wires (R25): functions of the input, no part of State. -/

namespace Sys2Proof.Machine

/-- Step 2 of `DEC` (R132): the overall parity recomputed from positions 1 to 7 equals the received bit at position 0. -/
def overallCorrect (c : Byte) : Bool := parity0 c == c.getLsbD 0

/-- One check of step 3 (R133): add the position's number to the total when the recomputed parity differs from the stored bit. -/
def addCheck (total : Syndrome) (expected stored : Bool) (p : Syndrome) : Syndrome :=
  if expected != stored then total + p else total

/-- Step 3 of `DEC` (R133): the running total over positions 1, 2, 4, in that order. -/
def syndrome (c : Byte) : Syndrome :=
  let afterOne := addCheck 0 (parity1 c) (c.getLsbD 1) 1
  let afterTwo := addCheck afterOne (parity2 c) (c.getLsbD 2) 2
  addCheck afterTwo (parity4 c) (c.getLsbD 4) 4

end Sys2Proof.Machine
end

