-- ==== Sys2Proof/Machine/Ops.lean ====
section
/-! DEFINITION. The named operations over State: driving the output ports of a unit for its present input (spec/00_scope.md R8
`port <- v`), raising the one error (spec/60_exceptions.md R161), driving a parity tree, and the environment's stimuli (R193).
Nothing returns from the error: there is no return operation and nothing to restore (R165). -/

namespace Sys2Proof.Machine

/-- The block's own state is what an operation left it (R20: the one value there is). -/
def setBlock (b : BlockState) (s : State) : State := { s with block := b }

/-- The encoder unit with `x` on `enc_in` drives `enc_out` with `w`. -/
def driveEnc (x w : Byte) (s : State) : State := { s with enc := ⟨x, w⟩ }

/-- The decoder unit with `c` on `dec_in` drives `dec_nibble` with `n` and `dec_ok` with 1. -/
def driveDecOk (c : Byte) (n : Nibble) (s : State) : State := { s with dec := ⟨c, n, true⟩ }

/-- `raise TwoErrorsDetected` (R161): for the present input `c`, `dec_ok = 0` and `dec_nibble = ERR_NIBBLE(c)`, a free value
(log 5), "and does nothing else". -/
def raiseTwoErrorsDetected (c : Byte) (s : State) : State := { s with dec := ⟨c, Config.errNibble c, false⟩ }

/-- The decoder unit's ports for input `c` and the function-level result `r` (C5). -/
def driveDec (c : Byte) (r : DecResult) (s : State) : State :=
  match r with
  | .ok n => driveDecOk c n s
  | .err  => raiseTwoErrorsDetected c s

/-- What stands at a parity tree. -/
def State.tree (s : State) : Tree → TreeNode
  | .par1 => s.par1
  | .par2 => s.par2
  | .par4 => s.par4
  | .par0 => s.par0

/-- A parity tree with `w` at its inputs gives `b`. -/
def driveTree (t : Tree) (w : Byte) (b : Bool) (s : State) : State :=
  match t with
  | .par1 => { s with par1 := ⟨w, b⟩ }
  | .par2 => { s with par2 := ⟨w, b⟩ }
  | .par4 => { s with par4 := ⟨w, b⟩ }
  | .par0 => { s with par0 := ⟨w, b⟩ }

/-- The oldest stimulus still to come and the state without it (log 3). -/
def takeStimulus (s : State) : Option (Stimulus × State) :=
  match s.pending with
  | []         => none
  | st :: rest => some (st, { s with pending := rest })

/-- The environment puts a stimulus ahead of all others (log 3). -/
def presentNext (st : Stimulus) (s : State) : State := { s with pending := st :: s.pending }

end Sys2Proof.Machine
end

