-- ==== Sys2Proof/Machine/Decoder.lean ====
section
/-! DEFINITION. The decoder unit, operation `DEC` (spec/42_decoder.md R130 to R137). -/

namespace Sys2Proof.Machine

/-- The function `DEC` (R130): the provisional nibble (R131), the checks (R132, R133) and the decision table (R134), with
codeword position number `syndrome` flipped in case 3 (R135, C2). -/
def decResult (c : Byte) : DecResult :=
  let prov := gather c
  if syndrome c = 0 then .ok prov
  else if overallCorrect c = false then .ok (gather (flipBit c (syndrome c).toNat))
  else .err

/-- `DEC` as the block does it: from the operand and the block's own state, which is one value (R20), its result and that state. -/
def blockDec (c : Byte) (b : BlockState) : DecResult × BlockState := (decResult c, b)

/-- The decoder unit evaluated with `c` on `dec_in` (R130, R161, R170). -/
def evalDec (c : Byte) (s : State) : State :=
  let r := blockDec c s.block
  driveDec c r.1 (setBlock r.2 s)

/-- `DEC` (R130): `TwoErrorsDetected` is a value on its outputs, not a trap (R164), so it too is a next state. -/
def execDec (c : Byte) (s : State) : Host.Outcome State Fault Refusal := .next (evalDec c s)

end Sys2Proof.Machine
end

