-- ==== Sys2Proof/Machine/Encoder.lean ====
section
/-! DEFINITION. The encoder unit, operation `ENC` (spec/41_encoder.md R110, R111). -/

namespace Sys2Proof.Machine

/-- Step 2 of `ENC` (R110): positions 1, 2, 4 get `PAR1`, `PAR2`, `PAR4`, in that order. -/
def withHammingParity (w : Byte) : Byte :=
  let w1 := setBit w 1 (parity1 w)
  let w2 := setBit w1 2 (parity2 w1)
  setBit w2 4 (parity4 w2)

/-- Step 3 of `ENC` (R110, R111): position 0 gets `PAR0`, after positions 1, 2 and 4 are final. -/
def withOverallParity (w : Byte) : Byte := setBit w 0 (parity0 w)

/-- The function `ENC` (R110): lay the data bits, Hamming parities, overall parity. -/
def encCodeword (x : Byte) : Byte := withOverallParity (withHammingParity (scatter (lowNibble x)))

/-- `ENC` as the block does it: from the operand and the block's own state, which is one value (R20), its output and that state.
Its type lets it read nothing else, so no result depends on an earlier operation. -/
def blockEnc (x : Byte) (b : BlockState) : Byte × BlockState := (encCodeword x, b)

/-- The encoder unit evaluated with `x` on `enc_in` (R110, R170). -/
def evalEnc (x : Byte) (s : State) : State :=
  let r := blockEnc x s.block
  driveEnc x r.1 (setBlock r.2 s)

/-- `ENC` (R110): never an error (R162). -/
def execEnc (x : Byte) (s : State) : Host.Outcome State Fault Refusal := .next (evalEnc x s)

end Sys2Proof.Machine
end

