-- ==== Sys2Proof/Machine/Parity.lean ====
section
/-! DEFINITION. The parity trees as operations of their own (spec/40_parity_trees.md R91 to R94). They have no port (R70, D8): a
result is seen on the model's own node of that tree and on none of the five ports (log 6). -/

namespace Sys2Proof.Machine

/-- A parity tree as the block does it: from the vector and the block's own state, which is one value (R20), the 1-bit result and
that state. -/
def blockTree (t : Tree) (w : Byte) (b : BlockState) : Bool × BlockState := (treeValue t w, b)

/-- A parity tree evaluated on `w`: its node holds the vector and the 1-bit result. -/
def evalTree (t : Tree) (w : Byte) (s : State) : State :=
  let r := blockTree t w s.block
  driveTree t w r.1 (setBlock r.2 s)

/-- `PAR1` (R91). -/
def execPar1 (w : Byte) (s : State) : Host.Outcome State Fault Refusal := .next (evalTree .par1 w s)

/-- `PAR2` (R92). -/
def execPar2 (w : Byte) (s : State) : Host.Outcome State Fault Refusal := .next (evalTree .par2 w s)

/-- `PAR4` (R93). -/
def execPar4 (w : Byte) (s : State) : Host.Outcome State Fault Refusal := .next (evalTree .par4 w s)

/-- `PAR0` (R94). -/
def execPar0 (w : Byte) (s : State) : Host.Outcome State Fault Refusal := .next (evalTree .par0 w s)

end Sys2Proof.Machine
end

