-- ==== Sys2Proof/Machine/Held.lean ====
section
/-! DEFINITION. What the block does while nothing new is presented: both units go on evaluating on the values their input ports
hold (spec/10_state.md R21; spec/30_encoding.md R70; spec/60_exceptions.md R170). -/

namespace Sys2Proof.Machine

/-- A tree evaluated on the vector it holds. -/
def evalHeldTree (t : Tree) (s : State) : State := evalTree t (s.tree t).w s

/-- Every unit and tree evaluated on the input it holds; the order does not matter (R170). DEDUCED (log 4). -/
def evalHeld (s : State) : State :=
  evalHeldTree .par0 (evalHeldTree .par4 (evalHeldTree .par2 (evalHeldTree .par1
    (evalDec s.dec.decIn (evalEnc s.enc.encIn s)))))

end Sys2Proof.Machine
end

