-- ==== Sys2Proof/Machine/Dispatch.lean ====
section
/-! DEFINITION. One arm for each operation of spec/opcode_table.json. -/

namespace Sys2Proof.Machine

def exec (i : Instr) (s : State) : Host.Outcome State Fault Refusal :=
  match i with
  | .enc x => Sys2Proof.Machine.execEnc x s
  | .dec c => Sys2Proof.Machine.execDec c s
  | .par1 w => Sys2Proof.Machine.execPar1 w s
  | .par2 w => Sys2Proof.Machine.execPar2 w s
  | .par4 w => Sys2Proof.Machine.execPar4 w s
  | .par0 w => Sys2Proof.Machine.execPar0 w s

end Sys2Proof.Machine
end

