-- ==== Sys2Proof/Machine/Step.lean ====
section
/-! DEFINITION. One step: the oldest stimulus is presented and the operation it selects is evaluated; with none, every unit
evaluates on what it holds. There is no program counter and nothing is fetched from memory (spec/10_state.md R22; log 3). -/

namespace Sys2Proof.Machine

/-- One step (R170: "one step of a unit replaces that unit's outputs by the function of its present input"). -/
def step (s : State) : Host.Outcome State Fault Refusal :=
  match takeStimulus s with
  | none          => .next (evalHeld s)
  | some (st, s') => exec (decode st) s'

/-- `s` with the stimulus a word stands for (log 7) presented next, so that the next step evaluates its operation; `s` itself
where the word stands for none. -/
def State.withFetchWord (s : State) (nbits w : Nat) : State :=
  match stimulusOfWord nbits w with
  | some st => presentNext st s
  | none    => s

end Sys2Proof.Machine
end

