-- ==== Sys2Proof/Safety.lean ====
section
/-! DEFINITION. The terms claims about the block are stated in: what an observer sees, what every run keeps, what a valid
codeword is, and the weight and syndrome of an error pattern. -/

namespace Sys2Proof.Machine

/-- What an observer outside the block sees: the five ports (spec/10_state.md R23) and nothing else (R25). -/
def State.ports (s : State) : EncUnit × DecUnit := (s.enc, s.dec)

/-- The decoder's outputs for an input (R130, R161). -/
def decOutputs (c : Byte) : Nibble × Bool :=
  match decResult c with
  | .ok n => (n, true)
  | .err  => (Config.errNibble c, false)

/-- Every output is the function of the input of its own unit (spec/10_state.md R21; spec/70_reset_and_hazards.md R193), and so
for the model's tree nodes: what a safe run keeps. -/
structure Settled (s : State) : Prop where
  enc  : s.enc.encOut = encCodeword s.enc.encIn
  dec  : (s.dec.decNibble, s.dec.decOk) = decOutputs s.dec.decIn
  tree : ∀ t, (s.tree t).bit = treeValue t (s.tree t).w

/-- A valid codeword (spec/30_encoding.md R67): every stored parity bit equals the XOR it stands for. -/
def validCodeword (w : Byte) : Bool :=
  (w.getLsbD 1 == (w.getLsbD 3 ^^ w.getLsbD 5 ^^ w.getLsbD 7)) &&
  (w.getLsbD 2 == (w.getLsbD 3 ^^ w.getLsbD 6 ^^ w.getLsbD 7)) &&
  (w.getLsbD 4 == (w.getLsbD 5 ^^ w.getLsbD 6 ^^ w.getLsbD 7)) &&
  (w.getLsbD 0 == (w.getLsbD 1 ^^ w.getLsbD 2 ^^ w.getLsbD 3 ^^ w.getLsbD 4 ^^ w.getLsbD 5 ^^ w.getLsbD 6 ^^ w.getLsbD 7))

/-- The positions whose bit is 1. -/
def onesOf (e : Byte) : List Nat := (List.range 8).filter fun i => e.getLsbD i

/-- How many bits of `e` are 1: for an error pattern, how many positions it flips. -/
def weight (e : Byte) : Nat := (onesOf e).length

/-- The XOR of the position numbers of the bits set in `e`, position 0 contributing 0 (spec/42_decoder.md R139). -/
def errorSyndrome (e : Byte) : Nat := (onesOf e).foldl (fun a i => a ^^^ i) 0

/-- All 256 bytes, for statements that count. -/
def allBytes : List Byte := (List.range 256).map (BitVec.ofNat 8)

/-- A nibble by its bits, the most significant first. -/
def nibbleOf (b3 b2 b1 b0 : Bool) : Nibble :=
  BitVec.ofBool b3 ++ BitVec.ofBool b2 ++ BitVec.ofBool b1 ++ BitVec.ofBool b0

/-- The data bits of a byte, written out: `{c[7], c[6], c[5], c[3]}` (spec/42_decoder.md R131). -/
def dataBits (c : Byte) : Nibble := nibbleOf (c.getLsbD 7) (c.getLsbD 6) (c.getLsbD 5) (c.getLsbD 3)

/-- Step 2 of `DEC` written out bit by bit (spec/42_decoder.md R130), for statements; the machine computes `overallCorrect`. -/
def receivedOverall (c : Byte) : Bool :=
  (c.getLsbD 1 ^^ c.getLsbD 2 ^^ c.getLsbD 3 ^^ c.getLsbD 4 ^^ c.getLsbD 5 ^^ c.getLsbD 6 ^^ c.getLsbD 7) == c.getLsbD 0

/-- Step 3 of `DEC` written out bit by bit (spec/42_decoder.md R130), for statements; the machine computes `syndrome`. -/
def receivedSyndrome (c : Byte) : Nat :=
  (if (c.getLsbD 3 ^^ c.getLsbD 5 ^^ c.getLsbD 7) != c.getLsbD 1 then 1 else 0) +
  (if (c.getLsbD 3 ^^ c.getLsbD 6 ^^ c.getLsbD 7) != c.getLsbD 2 then 2 else 0) +
  (if (c.getLsbD 5 ^^ c.getLsbD 6 ^^ c.getLsbD 7) != c.getLsbD 4 then 4 else 0)

/-- `g` is the function the machine's `ENC` computes: in every state it drives `enc_out` with `g enc_in` and does nothing else. -/
def IsEncFunction (g : Byte → Byte) : Prop :=
  ∀ (s : State) (x : Byte), exec (.enc x) s = .next { s with enc := ⟨x, g x⟩ }

/-- `f` is the function the machine's `DEC` computes: in every state it drives `ok(n)`, or raises `TwoErrorsDetected` with the
open value on `dec_nibble`, and does nothing else (C5). -/
def IsDecFunction (f : Byte → DecResult) : Prop :=
  ∀ (s : State) (c : Byte),
    (∀ n, f c = .ok n → exec (.dec c) s = .next { s with dec := ⟨c, n, true⟩ }) ∧
    (f c = .err → exec (.dec c) s = .next { s with dec := ⟨c, Config.errNibble c, false⟩ })

/-- `k` steps of the machine, stopping at the first that answers no next state; it is the host's `Core.run` of this machine
(`runSteps_eq_run` under Laws). -/
def runSteps : Nat → State → Host.Outcome State Fault Refusal
  | 0, s     => .next s
  | k + 1, s =>
    match step s with
    | .next t    => runSteps k t
    | .fault r   => .fault r
    | .refused r => .refused r

/-- The positions a tree reads: the tap masks 0xA8, 0xC8, 0xE0, 0xFE of spec/opcode_table.json (R91 to R94). -/
def tapsOf : Tree → List Nat
  | .par1 => [3, 5, 7]
  | .par2 => [3, 6, 7]
  | .par4 => [5, 6, 7]
  | .par0 => [1, 2, 3, 4, 5, 6, 7]

/-- Two states hold the same input and outputs at a place: at the encoder unit, the decoder unit, or a tree's node. -/
def agreeAt (p : Site) (s t : State) : Prop :=
  match p with
  | .encIn  => s.enc = t.enc
  | .decIn  => s.dec = t.dec
  | .tree u => s.tree u = t.tree u

/-- A stimulus on one of the two input ports, which alone the environment can present (R70, D8). -/
def onPort (st : Stimulus) : Bool :=
  match st.site with
  | .encIn  => true
  | .decIn  => true
  | .tree _ => false

end Sys2Proof.Machine
end

