-- ==== Sys2Proof/Certificates/Slice0/Obligations.lean ====
section
/-! DEFINITION. The statements for the provers, from the numbered rules of spec/. In all of them `exec i s = .next t` says that
the operation completes in state `s` and which state it leaves, so an equation for the whole of `t` is a frame as well.
A statement marked "the spec's own derivation" rests on an inference the spec marks so; a log entry n is notes/assumptions/n.md. -/

open Sys2Proof Sys2Proof.Machine

/-! ### The encoder unit -/

/-- R110: `ENC` lays the low nibble at positions 3, 5, 6, 7, puts the three Hamming parities and then the overall parity, in
every state, changes nothing but the encoder's ports, and gives the values of the rule's corner cases and worked example. -/
def Obligations.EncDrivesCodewordOfLowNibble : Prop :=
  ∀ (s : State) (x : Byte), ∃ w : Byte,
    exec (.enc x) s = .next { s with enc := ⟨x, w⟩ } ∧
    w.getLsbD 3 = x.getLsbD 0 ∧ w.getLsbD 5 = x.getLsbD 1 ∧ w.getLsbD 6 = x.getLsbD 2 ∧ w.getLsbD 7 = x.getLsbD 3 ∧
    w.getLsbD 1 = (w.getLsbD 3 ^^ w.getLsbD 5 ^^ w.getLsbD 7) ∧
    w.getLsbD 2 = (w.getLsbD 3 ^^ w.getLsbD 6 ^^ w.getLsbD 7) ∧
    w.getLsbD 4 = (w.getLsbD 5 ^^ w.getLsbD 6 ^^ w.getLsbD 7) ∧
    w.getLsbD 0 = (w.getLsbD 1 ^^ w.getLsbD 2 ^^ w.getLsbD 3 ^^ w.getLsbD 4 ^^ w.getLsbD 5 ^^ w.getLsbD 6 ^^ w.getLsbD 7) ∧
    (x = 0x00#8 → w = 0x00#8) ∧ (x = 0x0F#8 → w = 0xFF#8) ∧ (x = 0xF0#8 → w = 0x00#8) ∧
    (x = 0xA7#8 → w = 0x69#8) ∧ (x = 0x07#8 → w = 0x69#8) ∧ (x = 0x0B#8 → w = 0xAA#8)

/-- R112: `ENC` is defined on all 256 values, in every state, and its result is a function of the low four bits alone. -/
def Obligations.EncResultDependsOnLowBitsAlone : Prop :=
  ∀ (s s' : State) (x y : Byte), (∀ i, i < 4 → x.getLsbD i = y.getLsbD i) →
    ∃ w : Byte, exec (.enc x) s = .next { s with enc := ⟨x, w⟩ } ∧ exec (.enc y) s' = .next { s' with enc := ⟨y, w⟩ }

/-- The 16 codewords of 41_encoder.md R115, the spec's own derivation (95_test_vectors.md V1), whatever the four high bits. -/
def Obligations.EncResultTable : Prop :=
  ∀ (s : State) (hi : Nibble), ∀ p ∈ (
    [(0x0#4, 0x00#8), (0x1#4, 0x0F#8), (0x2#4, 0x33#8), (0x3#4, 0x3C#8),
     (0x4#4, 0x55#8), (0x5#4, 0x5A#8), (0x6#4, 0x66#8), (0x7#4, 0x69#8),
     (0x8#4, 0x96#8), (0x9#4, 0x99#8), (0xA#4, 0xA5#8), (0xB#4, 0xAA#8),
     (0xC#4, 0xC3#8), (0xD#4, 0xCC#8), (0xE#4, 0xF0#8), (0xF#4, 0xFF#8)] : List (Nibble × Byte)),
    exec (.enc (hi ++ p.1)) s = .next { s with enc := ⟨hi ++ p.1, p.2⟩ }

/-- R113: every result of `ENC` is a valid codeword, and the XOR of its eight bits is 0, the number of ones even. -/
def Obligations.EncResultIsValidCodeword : Prop :=
  ∀ (s : State) (x : Byte), ∃ w : Byte, exec (.enc x) s = .next { s with enc := ⟨x, w⟩ } ∧ validCodeword w = true ∧
    (w.getLsbD 0 ^^ w.getLsbD 1 ^^ w.getLsbD 2 ^^ w.getLsbD 3 ^^ w.getLsbD 4 ^^ w.getLsbD 5 ^^ w.getLsbD 6 ^^ w.getLsbD 7) = false ∧
    weight w % 2 = 0

/-- 30_encoding.md R67, the spec's own derivation: the valid codewords are exactly the values `ENC` drives, and there are 16. -/
def Obligations.ValidCodewordsAreTheEncResults : Prop :=
  ∃ g : Byte → Byte, IsEncFunction g ∧ (∀ w, validCodeword w = true ↔ ∃ x, g x = w) ∧
    (allBytes.filter validCodeword).length = 16

/-- 41_encoder.md R117, the spec's own derivation: `ENC` is linear over XOR, `gather` undoes it, its codewords have weights 0, 4
and 8 (one, fourteen, one) and differ pairwise in at least 4 positions, and complementing a codeword complements the nibble. -/
def Obligations.EncIsLinearWithDistanceFour : Prop :=
  ∃ g : Byte → Byte, IsEncFunction g ∧ (∀ x y, g (x ^^^ y) = g x ^^^ g y) ∧ (∀ x, dataBits (g x) = lowNibble x) ∧
    (∀ x y, g x ≠ g y → 4 ≤ weight (g x ^^^ g y)) ∧ (∀ x, g x ^^^ 0xFF#8 = g (x ^^^ 0x0F#8)) ∧
    ((allBytes.filter validCodeword).filter fun w => weight w == 0).length = 1 ∧
    ((allBytes.filter validCodeword).filter fun w => weight w == 4).length = 14 ∧
    ((allBytes.filter validCodeword).filter fun w => weight w == 8).length = 1

/-- On a finished codeword each parity tree returns the bit stored at its own position: `PAR0` was applied after positions 1, 2
and 4 were final (41_encoder.md R111), and 95_test_vectors.md V0 says so of the 16 codewords. The tree's node is the model's own (log 6). -/
def Obligations.TreesReturnStoredBitsOfCodeword : Prop :=
  ∀ (s : State) (x : Byte), ∃ w : Byte, exec (.enc x) s = .next { s with enc := ⟨x, w⟩ } ∧
    exec (.par1 w) s = .next { s with par1 := ⟨w, w.getLsbD 1⟩ } ∧
    exec (.par2 w) s = .next { s with par2 := ⟨w, w.getLsbD 2⟩ } ∧
    exec (.par4 w) s = .next { s with par4 := ⟨w, w.getLsbD 4⟩ } ∧
    exec (.par0 w) s = .next { s with par0 := ⟨w, w.getLsbD 0⟩ }

/-! ### The parity trees -/

/-- R91: `PAR1` in every state; a change `m` that avoids the tap mask 0xA8 leaves the result;
corner cases and worked example. The value is the rule's; that a tree is evaluated by itself and leaves its vector and bit on the
node par1 of State is the model's choice (log 6). -/
def Obligations.Par1ReadsPositions357 : Prop :=
  ∀ (s : State) (w m : Byte), m &&& 0xA8#8 = 0#8 → ∃ b : Bool,
    b = (w.getLsbD 3 ^^ w.getLsbD 5 ^^ w.getLsbD 7) ∧
    exec (.par1 w) s = .next { s with par1 := ⟨w, b⟩ } ∧
    exec (.par1 (w ^^^ m)) s = .next { s with par1 := ⟨w ^^^ m, b⟩ } ∧
    (w = 0x00#8 → b = false) ∧ (w = 0xFF#8 → b = true) ∧ (w = 0xAA#8 → b = true)

/-- R92: `PAR2`, tap mask 0xC8. The value is the rule's; that a tree is evaluated by itself and leaves its vector and bit on the
node par2 of State is the model's choice (log 6). -/
def Obligations.Par2ReadsPositions367 : Prop :=
  ∀ (s : State) (w m : Byte), m &&& 0xC8#8 = 0#8 → ∃ b : Bool,
    b = (w.getLsbD 3 ^^ w.getLsbD 6 ^^ w.getLsbD 7) ∧
    exec (.par2 w) s = .next { s with par2 := ⟨w, b⟩ } ∧
    exec (.par2 (w ^^^ m)) s = .next { s with par2 := ⟨w ^^^ m, b⟩ } ∧
    (w = 0x00#8 → b = false) ∧ (w = 0xFF#8 → b = true) ∧ (w = 0xAA#8 → b = false)

/-- R93: `PAR4`, tap mask 0xE0. The value is the rule's; that a tree is evaluated by itself and leaves its vector and bit on the
node par4 of State is the model's choice (log 6). -/
def Obligations.Par4ReadsPositions567 : Prop :=
  ∀ (s : State) (w m : Byte), m &&& 0xE0#8 = 0#8 → ∃ b : Bool,
    b = (w.getLsbD 5 ^^ w.getLsbD 6 ^^ w.getLsbD 7) ∧
    exec (.par4 w) s = .next { s with par4 := ⟨w, b⟩ } ∧
    exec (.par4 (w ^^^ m)) s = .next { s with par4 := ⟨w ^^^ m, b⟩ } ∧
    (w = 0x00#8 → b = false) ∧ (w = 0xFF#8 → b = true) ∧ (w = 0xAA#8 → b = false)

/-- R94: `PAR0`, tap mask 0xFE: positions 1 to 7, not position 0. The value is the rule's; that a tree is evaluated by
itself and leaves its vector and bit on the node par0 of State is the model's choice (log 6). -/
def Obligations.Par0ReadsPositions1To7 : Prop :=
  ∀ (s : State) (w m : Byte), m &&& 0xFE#8 = 0#8 → ∃ b : Bool,
    b = (w.getLsbD 1 ^^ w.getLsbD 2 ^^ w.getLsbD 3 ^^ w.getLsbD 4 ^^ w.getLsbD 5 ^^ w.getLsbD 6 ^^ w.getLsbD 7) ∧
    exec (.par0 w) s = .next { s with par0 := ⟨w, b⟩ } ∧
    exec (.par0 (w ^^^ m)) s = .next { s with par0 := ⟨w ^^^ m, b⟩ } ∧
    (w = 0x00#8 → b = false) ∧ (w = 0x01#8 → b = false) ∧ (w = 0xFF#8 → b = true) ∧ (w = 0xFE#8 → b = true) ∧
    (w = 0xAA#8 → b = false)

/-- R90, the covering rule: each Hamming tree is the XOR over the data positions it covers, which are those whose number has the
bit of weight `p` set, the table of the rule, and equally those with `(d DIV p)` odd; position 0 covers positions 1 to 7.
The rule and its table are R90's; that the result is read off a node of State is the model's choice (log 6). -/
def Obligations.TreesFollowTheCoveringRule : Prop :=
  ∀ (s : State) (w : Byte), Config.posParity = [1, 2, 4] ∧ Config.posOverall = 0 ∧
    (∀ q ∈ [(1, Tree.par1, [3, 5, 7]), (2, Tree.par2, [3, 6, 7]), (4, Tree.par4, [5, 6, 7])],
      Config.posData.filter (fun d => (d &&& q.1) != 0) = q.2.2 ∧
      Config.posData.filter (fun d => (d / q.1) % 2 == 1) = q.2.2 ∧
      Config.posData.filter (covers q.1) = q.2.2 ∧
      ∃ t : State, exec (decode ⟨.tree q.2.1, w⟩) s = .next t ∧
        t.tree q.2.1 = ⟨w, (q.2.2.map fun d => w.getLsbD d).foldl xor false⟩) ∧
    ∃ t : State, exec (decode ⟨.tree .par0, w⟩) s = .next t ∧
      t.tree .par0 = ⟨w, ([1, 2, 3, 4, 5, 6, 7].map fun d => w.getLsbD d).foldl xor false⟩

/-- 40_parity_trees.md R95: a tree's result is 1 exactly when an odd number of the bits it reads are 1. The
law is the rule's; the node it is read off, its vector and bit, is the model's choice (log 6). -/
def Obligations.TreeIsOneWhenOddlyManyTapsAreOne : Prop :=
  ∀ (s : State) (u : Tree) (w : Byte), ∃ t : State, exec (decode ⟨.tree u, w⟩) s = .next t ∧ (t.tree u).w = w ∧
    ((t.tree u).bit = true ↔ ((tapsOf u).filter fun i => w.getLsbD i).length % 2 = 1)

/-- 40_parity_trees.md R97, the spec's own derivation: the trees on the scattered nibble, and `PAR0` on the finished codeword,
by the nibble's bits. Each is given as a change of the tree's node, which is the model's choice (log 6). PAR of every other vector
is in Par1ReadsPositions357 and the three after it. -/
def Obligations.TreesOfTheNibble : Prop :=
  ∀ (s : State) (n : Nibble), ∃ c : Byte,
    exec (.enc (zext8 n)) s = .next { s with enc := ⟨zext8 n, c⟩ } ∧
    exec (.par1 (scatter n)) s = .next { s with par1 := ⟨scatter n, n.getLsbD 0 ^^ n.getLsbD 1 ^^ n.getLsbD 3⟩ } ∧
    exec (.par2 (scatter n)) s = .next { s with par2 := ⟨scatter n, n.getLsbD 0 ^^ n.getLsbD 2 ^^ n.getLsbD 3⟩ } ∧
    exec (.par4 (scatter n)) s = .next { s with par4 := ⟨scatter n, n.getLsbD 1 ^^ n.getLsbD 2 ^^ n.getLsbD 3⟩ } ∧
    exec (.par0 c) s = .next { s with par0 := ⟨c, n.getLsbD 0 ^^ n.getLsbD 1 ^^ n.getLsbD 2⟩ }

/-- The trees have no port (30_encoding.md R70; the spec's decision D8): evaluating one leaves all five ports, the other trees'
nodes and the stimuli to come. The nodes are the model's own (log 6). -/
def Obligations.TreeEvaluationLeavesThePorts : Prop :=
  ∀ (s : State) (u : Tree) (w : Byte), ∃ t : State, exec (decode ⟨.tree u, w⟩) s = .next t ∧ t.ports = s.ports ∧
    t.pending = s.pending ∧ t.tree u = ⟨w, treeValue u w⟩ ∧ ∀ v, v ≠ u → t.tree v = s.tree v

/-- No observer at the ports can tell whether trees are evaluated between the operations of the ports: a run over all pending
stimuli ends with the same ports as the run over those on ports alone. The model's choice: the queue (log 3), the trees' places in it and
their nodes (log 6), and that a failing `DEC` gives the same `dec_nibble` in both runs (log 5: ERR_NIBBLE is a function). -/
def Obligations.TreeEvaluationsAreInvisibleInRuns : Prop :=
  ∀ s : State, ∃ t u : State,
    runSteps s.pending.length s = .next t ∧
    runSteps (s.pending.filter onPort).length { s with pending := s.pending.filter onPort } = .next u ∧
    t.ports = u.ports

/-! ### The decoder unit -/

/-- R130: `DEC` by the rule's pseudocode, its checks written out bit by bit, in every state, nothing but the decoder's ports
changed; 112 of the 256 inputs raise; the rule's corner cases and worked example. In the failing case the nibble is the free value. -/
def Obligations.DecFollowsThePseudocode : Prop :=
  (∀ (s : State) (c : Byte),
    (receivedSyndrome c = 0 → exec (.dec c) s = .next { s with dec := ⟨c, dataBits c, true⟩ }) ∧
    (receivedSyndrome c ≠ 0 → receivedOverall c = false →
      exec (.dec c) s = .next { s with dec := ⟨c, dataBits (c ^^^ (1#8 <<< receivedSyndrome c)), true⟩ }) ∧
    (receivedSyndrome c ≠ 0 → receivedOverall c = true →
      exec (.dec c) s = .next { s with dec := ⟨c, Config.errNibble c, false⟩ })) ∧
  (allBytes.filter fun c => receivedSyndrome c != 0 && receivedOverall c).length = 112 ∧
  ∀ s : State,
    (∀ p ∈ ([(0x00#8, 0x0#4), (0x01#8, 0x0#4), (0x02#8, 0x0#4), (0x08#8, 0x0#4), (0x80#8, 0x0#4), (0xFF#8, 0xF#4),
        (0x7F#8, 0xF#4), (0xAE#8, 0xB#4)] : List (Byte × Nibble)),
      exec (.dec p.1) s = .next { s with dec := ⟨p.1, p.2, true⟩ }) ∧
    exec (.dec 0x03#8) s = .next { s with dec := ⟨0x03#8, Config.errNibble 0x03#8, false⟩ }

/-- R131: the provisional nibble is the four data bits as received, `ENC`'s inverse, and is what cases 1 and 2 return. -/
def Obligations.DecReturnsProvisionalNibble : Prop :=
  ∀ (s : State) (c : Byte), ∃ prov : Nibble,
    prov.getLsbD 0 = c.getLsbD 3 ∧ prov.getLsbD 1 = c.getLsbD 5 ∧ prov.getLsbD 2 = c.getLsbD 6 ∧ prov.getLsbD 3 = c.getLsbD 7 ∧
    (receivedSyndrome c = 0 → exec (.dec c) s = .next { s with dec := ⟨c, prov, true⟩ }) ∧
    ∀ x, exec (.enc x) s = .next { s with enc := ⟨x, c⟩ } → prov = lowNibble x

/-- R134 and R137: the decision table, row by row, over the machine's own wires; every input meets exactly one row and completes. -/
def Obligations.DecisionTableHasOneRowForEveryInput : Prop :=
  ∀ (s : State) (c : Byte),
    (syndrome c = 0 → overallCorrect c = true → exec (.dec c) s = .next { s with dec := ⟨c, dataBits c, true⟩ }) ∧
    (syndrome c = 0 → overallCorrect c = false → exec (.dec c) s = .next { s with dec := ⟨c, dataBits c, true⟩ }) ∧
    (syndrome c ≠ 0 → overallCorrect c = false →
      exec (.dec c) s = .next { s with dec := ⟨c, dataBits (c ^^^ (1#8 <<< (syndrome c).toNat)), true⟩ }) ∧
    (syndrome c ≠ 0 → overallCorrect c = true →
      exec (.dec c) s = .next { s with dec := ⟨c, Config.errNibble c, false⟩ }) ∧
    [syndrome c == 0 && overallCorrect c, syndrome c == 0 && !overallCorrect c,
      syndrome c != 0 && !overallCorrect c, syndrome c != 0 && overallCorrect c].count true = 1

/-- 42_decoder.md R135, the table by syndrome, the spec's own derivation: in case 3 a syndrome that names a parity position leaves
the provisional nibble, one that names a data position flips that data bit; 64 inputs of case 3 change it and 48 do not. -/
def Obligations.DecCorrectsByTheSyndromeTable : Prop :=
  (∀ (s : State) (c : Byte), receivedOverall c = false → ∀ p ∈ ([(1, 0b0000#4), (2, 0b0000#4), (3, 0b0001#4), (4, 0b0000#4),
      (5, 0b0010#4), (6, 0b0100#4), (7, 0b1000#4)] : List (Nat × Nibble)), receivedSyndrome c = p.1 →
    exec (.dec c) s = .next { s with dec := ⟨c, dataBits c ^^^ p.2, true⟩ }) ∧
  ∃ f : Byte → DecResult, IsDecFunction f ∧
    (allBytes.filter fun c => receivedSyndrome c != 0 && !receivedOverall c && f c != .ok (dataBits c)).length = 64 ∧
    (allBytes.filter fun c => receivedSyndrome c != 0 && !receivedOverall c && f c == .ok (dataBits c)).length = 48

/-- R136: `DEC` fails exactly when the syndrome is not 0 and the overall parity is right; then `dec_ok` is 0, `dec_nibble`
carries the free value `ERR_NIBBLE(dec_in)`, and everything else is as it was. -/
def Obligations.DecFailsExactlyInCaseFour : Prop :=
  ∀ (s : State) (c : Byte),
    (exec (.dec c) s = .next { s with dec := ⟨c, Config.errNibble c, false⟩ } ↔
      receivedSyndrome c ≠ 0 ∧ receivedOverall c = true) ∧
    ∃ t : State, exec (.dec c) s = .next t ∧ (t.dec.decOk = false ↔ receivedSyndrome c ≠ 0 ∧ receivedOverall c = true)

/-- 42_decoder.md R132, R133, R138, with the spec's own derivation of the closed forms: the syndrome is `{s4, s2, s1}` and
`4*s4 + 2*s2 + s1`, the overall parity is right exactly when the XOR of all eight bits is 0, and `dec_ok = ~(s1|s2|s4) | t`. -/
def Obligations.DecChecksHaveTheClosedForm : Prop :=
  ∀ (s : State) (c : Byte), ∃ (s1 s2 s4 x : Bool) (t : State),
    s1 = (c.getLsbD 1 ^^ c.getLsbD 3 ^^ c.getLsbD 5 ^^ c.getLsbD 7) ∧
    s2 = (c.getLsbD 2 ^^ c.getLsbD 3 ^^ c.getLsbD 6 ^^ c.getLsbD 7) ∧
    s4 = (c.getLsbD 4 ^^ c.getLsbD 5 ^^ c.getLsbD 6 ^^ c.getLsbD 7) ∧
    x = (c.getLsbD 0 ^^ c.getLsbD 1 ^^ c.getLsbD 2 ^^ c.getLsbD 3 ^^ c.getLsbD 4 ^^ c.getLsbD 5 ^^ c.getLsbD 6 ^^ c.getLsbD 7) ∧
    syndrome c = BitVec.ofBool s4 ++ BitVec.ofBool s2 ++ BitVec.ofBool s1 ∧
    (syndrome c).toNat = 4 * s4.toNat + 2 * s2.toNat + s1.toNat ∧
    (overallCorrect c = true ↔ x = false) ∧
    exec (.dec c) s = .next t ∧ t.dec.decIn = c ∧ t.dec.decOk = (!(s1 || s2 || s4) || x)

/-- 42_decoder.md R139, the spec's own derivation: on a valid codeword with error pattern `e` the syndrome is the XOR of the flipped
positions' numbers, the overall parity is right exactly when `e` has an even number of ones, and `dec_ok` follows. -/
def Obligations.DecChecksDependOnTheErrorAlone : Prop :=
  ∀ (s : State) (v e : Byte), validCodeword v = true →
    (syndrome (v ^^^ e)).toNat = errorSyndrome e ∧
    (overallCorrect (v ^^^ e) = true ↔ weight e % 2 = 0) ∧
    (weight e = 2 → errorSyndrome e ≠ 0) ∧
    ∃ t : State, exec (.dec (v ^^^ e)) s = .next t ∧ (t.dec.decOk = true ↔ errorSyndrome e = 0 ∨ weight e % 2 = 1)

/-- R141, the three guarantees: for every nibble, `DEC` of what `ENC` drives returns it; of that with any one position flipped
returns it; of that with any two distinct positions flipped fails with `TwoErrorsDetected`. The states of the two units are independent. -/
def Obligations.SingleErrorCorrectedDoubleErrorDetected : Prop :=
  ∀ (s : State) (x : Byte), ∃ v : Byte,
    exec (.enc x) s = .next { s with enc := ⟨x, v⟩ } ∧ ∀ s' : State,
      exec (.dec v) s' = .next { s' with dec := ⟨v, lowNibble x, true⟩ } ∧
      (∀ i, i < 8 → exec (.dec (flipBit v i)) s' = .next { s' with dec := ⟨flipBit v i, lowNibble x, true⟩ }) ∧
      (∀ i j, i < 8 → j < 8 → i ≠ j → exec (.dec (flipBit (flipBit v i) j)) s' =
        .next { s' with dec := ⟨flipBit (flipBit v i) j, Config.errNibble (flipBit (flipBit v i) j), false⟩ })

/-- Presenting a nibble on `enc_in` and then what the encoder drives on `dec_in` gives `ok` of the nibble (41_encoder.md R114), in two
steps. That the two values stand in a queue of State and that each step takes one is the model's choice (log 3). -/
def Obligations.RoundTripInTwoSteps : Prop :=
  ∀ (s : State) (x : Byte) (rest : List Stimulus), ∃ v : Byte,
    exec (.enc x) s = .next { s with enc := ⟨x, v⟩ } ∧
    runSteps 2 { s with pending := ⟨.encIn, x⟩ :: ⟨.decIn, v⟩ :: rest } =
      .next { s with enc := ⟨x, v⟩, dec := ⟨v, lowNibble x, true⟩, pending := rest }

/-- 42_decoder.md R142, the spec's own derivation: for every codeword and each number of flipped bits, how many of the error
patterns decode to the right nibble, to a wrong one, and to an error. -/
def Obligations.OutcomesByNumberOfFlippedBits : Prop :=
  ∃ (g : Byte → Byte) (f : Byte → DecResult), IsEncFunction g ∧ IsDecFunction f ∧
    ∀ x : Byte, ∀ r ∈ [(0, 1, 0, 0), (1, 8, 0, 0), (2, 0, 0, 28), (3, 0, 56, 0), (4, 0, 14, 56), (5, 0, 56, 0), (6, 0, 0, 28),
        (7, 0, 8, 0), (8, 0, 1, 0)],
      ((allBytes.filter fun e => weight e == r.1).filter fun e => f (g x ^^^ e) == .ok (lowNibble x)).length = r.2.1 ∧
      ((allBytes.filter fun e => weight e == r.1).filter fun e =>
        f (g x ^^^ e) != .ok (lowNibble x) && f (g x ^^^ e) != .err).length = r.2.2.1 ∧
      ((allBytes.filter fun e => weight e == r.1).filter fun e => f (g x ^^^ e) == .err).length = r.2.2.2

/-- 70_reset_and_hazards.md R198, the spec's own derivation: beyond two flips, every odd number of them and every pattern that is a
codeword other than 0 gives a wrong nibble with `dec_ok = 1`, and every other pattern of four or six gives an error. -/
def Obligations.MiscorrectionBeyondTwoFlips : Prop :=
  ∀ (s : State) (x e : Byte), 3 ≤ weight e → ∃ v : Byte,
    exec (.enc x) s = .next { s with enc := ⟨x, v⟩ } ∧
    ((weight e % 2 = 1 ∨ validCodeword e = true) →
      ∃ n : Nibble, n ≠ lowNibble x ∧ exec (.dec (v ^^^ e)) s = .next { s with dec := ⟨v ^^^ e, n, true⟩ }) ∧
    (weight e % 2 = 0 → validCodeword e = false →
      exec (.dec (v ^^^ e)) s = .next { s with dec := ⟨v ^^^ e, Config.errNibble (v ^^^ e), false⟩ })

/-- 30_encoding.md R73 and 95_test_vectors.md V3, the spec's own derivation: the four cases have 16, 16, 112 and 112 inputs, and
each nibble is the answer on exactly 9. -/
def Obligations.DecCasesAndAnswersAreCounted : Prop :=
  ∃ f : Byte → DecResult, IsDecFunction f ∧
    (allBytes.filter fun c => receivedSyndrome c == 0 && receivedOverall c && f c != .err).length = 16 ∧
    (allBytes.filter fun c => receivedSyndrome c == 0 && !receivedOverall c && f c != .err).length = 16 ∧
    (allBytes.filter fun c => receivedSyndrome c != 0 && !receivedOverall c && f c != .err).length = 112 ∧
    (allBytes.filter fun c => receivedSyndrome c != 0 && receivedOverall c && f c == .err).length = 112 ∧
    ∀ n : Nibble, (allBytes.filter fun c => f c == .ok n).length = 9

/-- The table of 95_test_vectors.md V3: row `dec_in[7:4]`, column `dec_in[3:0]`, the nibble answered, 16 standing for `err`. -/
def Sys2Proof.Machine.decTable : List (List Nat) :=
    [[0, 0, 0, 16, 0, 16, 16, 1, 0, 16, 16, 1, 16, 1, 1, 1],
     [0, 16, 16, 2, 16, 4, 8, 16, 16, 9, 5, 16, 3, 16, 16, 1],
     [0, 16, 16, 2, 16, 10, 6, 16, 16, 7, 11, 16, 3, 16, 16, 1],
     [16, 2, 2, 2, 3, 16, 16, 2, 3, 16, 16, 2, 3, 3, 3, 16],
     [0, 16, 16, 12, 16, 4, 6, 16, 16, 7, 5, 16, 13, 16, 16, 1],
     [16, 4, 5, 16, 4, 4, 16, 4, 5, 16, 5, 5, 16, 4, 5, 16],
     [16, 7, 6, 16, 6, 16, 6, 6, 7, 7, 16, 7, 16, 7, 6, 16],
     [14, 16, 16, 2, 16, 4, 6, 16, 16, 7, 5, 16, 3, 16, 16, 15],
     [0, 16, 16, 12, 16, 10, 8, 16, 16, 9, 11, 16, 13, 16, 16, 1],
     [16, 9, 8, 16, 8, 16, 8, 8, 9, 9, 16, 9, 16, 9, 8, 16],
     [16, 10, 11, 16, 10, 10, 16, 10, 11, 16, 11, 11, 16, 10, 11, 16],
     [14, 16, 16, 2, 16, 10, 8, 16, 16, 9, 11, 16, 3, 16, 16, 15],
     [16, 12, 12, 12, 13, 16, 16, 12, 13, 16, 16, 12, 13, 13, 13, 16],
     [14, 16, 16, 12, 16, 4, 8, 16, 16, 9, 5, 16, 13, 16, 16, 15],
     [14, 16, 16, 12, 16, 10, 6, 16, 16, 7, 11, 16, 13, 16, 16, 15],
     [14, 14, 14, 16, 14, 16, 16, 15, 14, 16, 16, 15, 16, 15, 15, 15]]

/-- The complete result table of `DEC` (95_test_vectors.md V3, to which 42_decoder.md R143 points), the spec's own derivation. -/
def Obligations.DecResultTable : Prop :=
  ∀ (s : State) (hi lo : Nat), hi < 16 → lo < 16 → ∃ (r : Nat) (c : Byte),
    r = (decTable.getD hi []).getD lo 17 ∧ c.toNat = 16 * hi + lo ∧ r ≤ 16 ∧
    (r < 16 → exec (.dec c) s = .next { s with dec := ⟨c, BitVec.ofNat 4 r, true⟩ }) ∧
    (r = 16 → exec (.dec c) s = .next { s with dec := ⟨c, Config.errNibble c, false⟩ })

/-- The byte view of the answer (30_encoding.md R62; the spec's decision D4): its four high bits are 0, so decoding what `ENC` drives
for a byte 0 to 15 gives that byte back. -/
def Obligations.ByteViewReturnsTheNibble : Prop :=
  (∀ (n : Nibble) (i : Nat), 4 ≤ i → (zext8 n).getLsbD i = false) ∧
  ∀ (s : State) (x : Byte), x.toNat < 16 → ∃ (v : Byte) (n : Nibble),
    exec (.enc x) s = .next { s with enc := ⟨x, v⟩ } ∧
    exec (.dec v) s = .next { s with dec := ⟨v, n, true⟩ } ∧ zext8 n = x

/-- 42_decoder.md R140 (the spec's decision D7): a clean codeword and the same with one position flipped give the same `dec_nibble`
and `dec_ok`; only encoding the answer again and comparing, outside the block, tells them apart. -/
def Obligations.CorrectionIsSilent : Prop :=
  ∃ g : Byte → Byte, IsEncFunction g ∧
    ∀ (s : State) (v : Byte) (i : Nat), validCodeword v = true → i < 8 → ∃ n : Nibble,
      exec (.dec v) s = .next { s with dec := ⟨v, n, true⟩ } ∧
      exec (.dec (flipBit v i)) s = .next { s with dec := ⟨flipBit v i, n, true⟩ } ∧
      g (zext8 n) = v ∧ g (zext8 n) ≠ flipBit v i

/-! ### The whole machine -/

/-- R162: no operand of any operation is illegal: every operation completes in every state; and none but `DEC` touches the
decoder's outputs, so none but `DEC` can report the error. -/
def Obligations.NothingButDecRaises : Prop :=
  ∀ (s : State) (i : Instr), ∃ t : State, exec i s = .next t ∧ ((∀ c, i ≠ .dec c) → t.dec = s.dec)

/-- R165: a `DEC` that raised has no effect on the next, which is judged on its own operand: where that one is in cases 1 to 3 it
answers, from the state after the error, the nibble it would have answered had the error not been; where it is in case 4 it
raises. Nothing is said of `dec_nibble` when it raises, so no clause rests on log 5. -/
def Obligations.DecAfterAnErrorIsJudgedOnItsOwnOperand : Prop :=
  ∀ (s t : State) (c d : Byte), receivedSyndrome c ≠ 0 → receivedOverall c = true → exec (.dec c) s = .next t →
    t.dec.decOk = false ∧
    (receivedSyndrome d = 0 ∨ receivedOverall d = false → ∃ n : Nibble,
      exec (.dec d) t = .next { s with dec := ⟨d, n, true⟩ } ∧ exec (.dec d) s = .next { s with dec := ⟨d, n, true⟩ }) ∧
    (receivedSyndrome d ≠ 0 → receivedOverall d = true → ∃ m n : Nibble,
      exec (.dec d) t = .next { s with dec := ⟨d, m, false⟩ } ∧ exec (.dec d) s = .next { s with dec := ⟨d, n, false⟩ })

/-- A `DEC`, raising or not, has no effect on the next (60_exceptions.md R165): the state the next leaves is as if the first had not
been. That this holds of `dec_nibble` too when the next one raises is the model's choice (log 5: ERR_NIBBLE is a function). -/
def Obligations.ErrorLeavesNothingBehind : Prop :=
  ∀ (s t : State) (c d : Byte), exec (.dec c) s = .next t → ∃ u : State, exec (.dec d) t = .next u ∧ exec (.dec d) s = .next u

/-- Operations of different places commute (60_exceptions.md R170, the spec's decision D10): either order completes and leaves the
same state, which is how the model shows two presented at once (log 8). That the two evaluations of a failing `DEC` give the same
`dec_nibble` is the model's choice (log 5: ERR_NIBBLE is a function), as are the trees' nodes (log 6). -/
def Obligations.OperationsOfDifferentUnitsCommute : Prop :=
  ∀ (s : State) (i j : Instr), siteOf i ≠ siteOf j → ∃ a b t : State,
    exec i s = .next a ∧ exec j s = .next b ∧ exec j a = .next t ∧ exec i b = .next t

/-- The frame of every operation: it leaves the inputs and outputs of every other place, and the stimuli to come. That the units leave
each other's ports is the spec's (10_state.md R21, R23: they share no port and no wire); that State has nodes for the trees, which
the frame speaks of too, is the model's choice (log 6), and so is that the stimuli to come stand in State (log 3). -/
def Obligations.OperationLeavesOtherPlaces : Prop :=
  ∀ (s t : State) (i : Instr), exec i s = .next t →
    t.pending = s.pending ∧ ∀ p, p ≠ siteOf i → agreeAt p t s

/-- 20_memory.md R43: evaluating an operation again on the same input gives the same output and changes nothing.
That this holds of the `dec_nibble` of a failing `DEC` is the model's choice (log 5; R27 allows the exception), as are the trees' nodes (log 6). -/
def Obligations.EvaluatingAgainChangesNothing : Prop :=
  ∀ (s : State) (i : Instr), ∃ t : State, exec i s = .next t ∧ exec i t = .next t

/-- 20_memory.md R46: whatever operations come before, at the same time on other places, or from whatever state, the result of an operation is
the function of its own operand alone: after any prefix, the operation, and any stimuli of other places, what stands at its place
is what the operation leaves there from any state `s0` at all. The model's choice: the queue and its steps (log 3), and that a
failing `DEC` gives the same `dec_nibble` from both states (log 5: ERR_NIBBLE is a function), and the trees' places and nodes (log 6). -/
def Obligations.ResultIsIndependentOfTheSchedule : Prop :=
  ∀ (s s0 : State) (before later rest : List Stimulus) (i : Instr),
    s.pending = before ++ encode i :: (later ++ rest) → (∀ st ∈ later, st.site ≠ siteOf i) →
    ∃ t t0 : State, runSteps (before.length + 1 + later.length) s = .next t ∧ exec i s0 = .next t0 ∧
      t.pending = rest ∧ agreeAt (siteOf i) t t0

/-- "Nothing survives from one operation to the next", and the block's own state is one value (10_state.md R20): once values have been
presented at every place, in any order and however often, the state is the same whatever it was before. The model's choice: the
queue (log 3), the trees' nodes (log 6), and that a failing `DEC` gives the same `dec_nibble` from both states (log 5). -/
def Obligations.NothingSurvivesNewValuesAtEveryPlace : Prop :=
  ∀ (s s' : State) (now rest : List Stimulus), (∀ p : Site, ∃ st ∈ now, st.site = p) →
    s.block = s'.block ∧ ∃ t : State,
      runSteps now.length { s with pending := now ++ rest } = .next t ∧
      runSteps now.length { s' with pending := now ++ rest } = .next t

/-- `State.reset` (the model's choice, log 2) has every output at the function of its input, the trees' nodes (log 6) among them. -/
def Obligations.ResetIsSettled : Prop := Settled State.reset

/-- Every step keeps every output the function of the input of its own unit (10_state.md R21; 70_reset_and_hazards.md R193), from
any such state, reached or not. The model's choice: that a failing `dec_nibble` stays the same function of `dec_in` (log 5), and the
trees' nodes, which it speaks of too (log 6). -/
def Obligations.StepKeepsSettled : Prop :=
  ∀ s t : State, Settled s → step s = .next t → Settled t

/-- With nothing presented (log 4) a step leaves every input as it is and makes every output the function of it, from any state; a
settled state it leaves whole. That this holds of a failing `dec_nibble` is the model's choice (log 5), as are the trees' nodes (log 6). -/
def Obligations.IdleStepSettlesAndHolds : Prop :=
  ∀ s : State, s.pending = [] → ∃ t : State, step s = .next t ∧ Settled t ∧ t.pending = [] ∧
    t.enc.encIn = s.enc.encIn ∧ t.dec.decIn = s.dec.decIn ∧ (∀ u, (t.tree u).w = (s.tree u).w) ∧ (Settled s → t = s)

/-- No run ever stops (93_implementation_defined.md: nothing is a fault, a stuck state or a refusal), and each step takes one
stimulus (log 3). -/
def Obligations.RunNeverStops : Prop :=
  ∀ (k : Nat) (s : State), ∃ t : State, runSteps k s = .next t ∧ t.pending = s.pending.drop k

/-- A step presents the oldest stimulus and evaluates the operation its place selects (30_encoding.md R70, the spec's decision D20). The
model's choice: that stimuli stand in State and a step takes one (log 3), and that the trees have places (log 6). -/
def Obligations.StepEvaluatesThePresentedOperation : Prop :=
  ∀ (s : State) (st : Stimulus) (rest : List Stimulus), s.pending = st :: rest →
    step s = exec (decode st) { s with pending := rest }

/-- A word that the decoder reads as an operation is evaluated by the very next step once it is presented, and the rest of the
state is as if it had been evaluated there. The model's choice: the queue (log 3), the trees' places (log 6), the word (log 7). -/
def Obligations.StepEvaluatesTheWordRead : Prop :=
  ∀ (s : State) (nbits w : Nat) (i : Instr), decodeTableWord nbits w = some i → step (s.withFetchWord nbits w) = exec i s

/-! ### Selection, and the written form (the model's own, log 7; the trees' places in it, log 6) -/

/-- The place alone selects the operation: each place and value selects one operation, with that value as its operand, and each
operation is selected by one place and value. For the two ports this is the spec's own decision (30_encoding.md R70;
92_eei_decisions.md D20). That the four trees, which have no port and cannot be selected from outside (D8), have places too is the
model's choice (log 6). -/
def Obligations.PlaceSelectsTheOperation : Prop :=
  (∀ (p : Site) (v : Byte), siteOf (decode ⟨p, v⟩) = p ∧ operandOf (decode ⟨p, v⟩) = v) ∧
  ∀ i : Instr, decode (encode i) = i

/-- Decode and encode agree: any sequence of operations, every operand at every value, is read back from its written form (log 7),
the trees at their places (log 6) included. -/
def Obligations.DecodeOfEncodeIsIdentity : Prop :=
  ∀ is : List Instr, decodeStream (encodeStream is) = .ok is

/-- Bytes that are read as operations are the written form of those operations and of no others (log 7; the trees' places: log 6). -/
def Obligations.BytesReadAreTheWrittenForm : Prop :=
  ∀ (bs : List Byte) (is : List Instr), decodeStream bs = .ok is → encodeStream is = bs

/-- The decoder reads one operation from exactly the well-formed bytes (log 7; the trees' places: log 6). -/
def Obligations.WellFormedBytesAreRead : Prop :=
  ∀ bs : List Byte, wellFormedBytes bs = true ↔ ∃ i : Instr, decodeBytes bs = .ok (i, [])

/-- Words written out bit by bit (operand in bits 7 to 0, place in bits 15 to 8: log 7; the trees' places: log 6) and what
they are read as. -/
def Obligations.WordsAreReadAsTheirOperations : Prop :=
  decodeTableWord 8 0b10100111 = some (.enc 0xA7#8) ∧
  decodeTableWord 16 0b00000000_00001011 = some (.enc 0x0B#8) ∧
  decodeTableWord 16 0b00000001_10101110 = some (.dec 0xAE#8) ∧
  decodeTableWord 16 0b00000010_10101010 = some (.par1 0xAA#8) ∧
  decodeTableWord 16 0b00000011_01000000 = some (.par2 0x40#8) ∧
  decodeTableWord 16 0b00000100_11100000 = some (.par4 0xE0#8) ∧
  decodeTableWord 16 0b00000101_11111110 = some (.par0 0xFE#8) ∧
  decodeTableWord 16 0b00000110_10101010 = none
end

