-- ==== Sys2Proof/Laws/Bits.lean ====
section
/-! SUPPORT. What the bit helpers and the operand forms do, bit by bit (spec/30_encoding.md R61 to R65). -/

namespace Sys2Proof.Machine

theorem getLsbD_oneHot (k i j : Nat) : (oneHot k i).getLsbD j = (decide (j = i) && decide (i < k)) := by
  unfold oneHot
  rw [BitVec.getLsbD_shiftLeft, BitVec.getLsbD_one]
  by_cases hj : j = i <;> by_cases hi : i < k <;> simp [hj, hi] <;> omega

/-- A bit of `setBit`: the new value at the place written, the old one elsewhere. -/
theorem getLsbD_setBit {k : Nat} (v : BitVec k) (i j : Nat) (b : Bool) (hi : i < k) :
    (setBit v i b).getLsbD j = if j = i then b else v.getLsbD j := by
  unfold setBit
  cases b <;> by_cases hj : j = i <;> simp [getLsbD_oneHot, hj, hi]
  all_goals intro h; exact BitVec.lt_of_getLsbD h

theorem getLsbD_flipBit (w : Byte) (i j : Nat) (hi : i < 8) :
    (flipBit w i).getLsbD j = (w.getLsbD j ^^ decide (j = i)) := by
  simp [flipBit, getLsbD_oneHot, hi]

/-- Flipping a position twice gives the value back. -/
theorem flipBit_flipBit (w : Byte) (i : Nat) : flipBit (flipBit w i) i = w := by
  simp [flipBit]

theorem getLsbD_gather (w : Byte) :
    (gather w).getLsbD 0 = w.getLsbD 3 ∧ (gather w).getLsbD 1 = w.getLsbD 5 ∧
    (gather w).getLsbD 2 = w.getLsbD 6 ∧ (gather w).getLsbD 3 = w.getLsbD 7 := by
  refine ⟨?_, ?_, ?_, ?_⟩ <;> (unfold gather; repeat rw [getLsbD_setBit _ _ _ _ (by decide)]) <;> rfl

theorem getLsbD_scatter (n : Nibble) :
    (scatter n).getLsbD 0 = false ∧ (scatter n).getLsbD 1 = false ∧ (scatter n).getLsbD 2 = false ∧
    (scatter n).getLsbD 3 = n.getLsbD 0 ∧ (scatter n).getLsbD 4 = false ∧ (scatter n).getLsbD 5 = n.getLsbD 1 ∧
    (scatter n).getLsbD 6 = n.getLsbD 2 ∧ (scatter n).getLsbD 7 = n.getLsbD 3 := by
  refine ⟨?_, ?_, ?_, ?_, ?_, ?_, ?_, ?_⟩ <;>
    (unfold scatter; repeat rw [getLsbD_setBit _ _ _ _ (by decide)]) <;> rfl

/-- `gather(scatter(n)) == n` (R65). -/
theorem gather_scatter (n : Nibble) : gather (scatter n) = n := by
  have h := getLsbD_gather (scatter n)
  simp only [getLsbD_scatter n] at h
  apply BitVec.eq_of_getLsbD_eq
  intro i hi
  match i, hi with
  | 0, _ => exact h.1
  | 1, _ => exact h.2.1
  | 2, _ => exact h.2.2.1
  | 3, _ => exact h.2.2.2

theorem getLsbD_lowNibble (x : Byte) (i : Nat) (hi : i < 4) : (lowNibble x).getLsbD i = x.getLsbD i := by
  simp [lowNibble, hi]

end Sys2Proof.Machine
end

