-- ==== Sys2Proof/Laws/PerInstr.lean ====
section
/-! SUPPORT. Statements about every operation as syntax, one lemma a constructor. -/

namespace Sys2Proof.Laws.Form

/-- The written form of an operation (log 7) is well-formed, and the operation itself is. -/
def Statement (i : Instr) : Prop := wellFormedBytes (encodeBytes i) = true ∧ i.wellFormed = true

theorem enc (x : Byte) : Statement (.enc x) := ⟨rfl, rfl⟩
theorem dec (c : Byte) : Statement (.dec c) := ⟨rfl, rfl⟩
theorem par1 (w : Byte) : Statement (.par1 w) := ⟨rfl, rfl⟩
theorem par2 (w : Byte) : Statement (.par2 w) := ⟨rfl, rfl⟩
theorem par4 (w : Byte) : Statement (.par4 w) := ⟨rfl, rfl⟩
theorem par0 (w : Byte) : Statement (.par0 w) := ⟨rfl, rfl⟩

end Sys2Proof.Laws.Form
end

