-- ==== Sys2Proof/Laws/State.lean ====
section
/-! SUPPORT. One lemma for each field of State under each operation that writes State, so that no proof unfolds a record update. -/

namespace Sys2Proof.Machine

/-- The block's state is one value (R20), so setting it changes nothing. -/
@[simp] theorem setBlock_eq (b : BlockState) (s : State) : setBlock b s = s := rfl

section driveEnc
variable (x w : Byte) (s : State)
@[simp] theorem driveEnc_block : (driveEnc x w s).block = s.block := rfl
@[simp] theorem driveEnc_enc : (driveEnc x w s).enc = ⟨x, w⟩ := rfl
@[simp] theorem driveEnc_dec : (driveEnc x w s).dec = s.dec := rfl
@[simp] theorem driveEnc_tree (t : Tree) : (driveEnc x w s).tree t = s.tree t := by cases t <;> rfl
@[simp] theorem driveEnc_pending : (driveEnc x w s).pending = s.pending := rfl
end driveEnc

section driveDecOk
variable (c : Byte) (n : Nibble) (s : State)
@[simp] theorem driveDecOk_block : (driveDecOk c n s).block = s.block := rfl
@[simp] theorem driveDecOk_enc : (driveDecOk c n s).enc = s.enc := rfl
@[simp] theorem driveDecOk_dec : (driveDecOk c n s).dec = ⟨c, n, true⟩ := rfl
@[simp] theorem driveDecOk_tree (t : Tree) : (driveDecOk c n s).tree t = s.tree t := by cases t <;> rfl
@[simp] theorem driveDecOk_pending : (driveDecOk c n s).pending = s.pending := rfl
end driveDecOk

section raise
variable (c : Byte) (s : State)
@[simp] theorem raiseTwoErrorsDetected_block : (raiseTwoErrorsDetected c s).block = s.block := rfl
@[simp] theorem raiseTwoErrorsDetected_enc : (raiseTwoErrorsDetected c s).enc = s.enc := rfl
@[simp] theorem raiseTwoErrorsDetected_dec :
    (raiseTwoErrorsDetected c s).dec = ⟨c, Config.errNibble c, false⟩ := rfl
@[simp] theorem raiseTwoErrorsDetected_tree (t : Tree) : (raiseTwoErrorsDetected c s).tree t = s.tree t := by
  cases t <;> rfl
@[simp] theorem raiseTwoErrorsDetected_pending : (raiseTwoErrorsDetected c s).pending = s.pending := rfl
end raise

section driveDec
variable (c : Byte) (r : DecResult) (s : State)
@[simp] theorem driveDec_block : (driveDec c r s).block = s.block := rfl
@[simp] theorem driveDec_enc : (driveDec c r s).enc = s.enc := by cases r <;> rfl
@[simp] theorem driveDec_tree (t : Tree) : (driveDec c r s).tree t = s.tree t := by cases r <;> cases t <;> rfl
@[simp] theorem driveDec_pending : (driveDec c r s).pending = s.pending := by cases r <;> rfl
@[simp] theorem driveDec_decIn : (driveDec c r s).dec.decIn = c := by cases r <;> rfl
end driveDec

section driveTree
variable (t : Tree) (w : Byte) (b : Bool) (s : State)
@[simp] theorem driveTree_block : (driveTree t w b s).block = s.block := rfl
@[simp] theorem driveTree_enc : (driveTree t w b s).enc = s.enc := by cases t <;> rfl
@[simp] theorem driveTree_dec : (driveTree t w b s).dec = s.dec := by cases t <;> rfl
@[simp] theorem driveTree_pending : (driveTree t w b s).pending = s.pending := by cases t <;> rfl
@[simp] theorem driveTree_tree_self : (driveTree t w b s).tree t = ⟨w, b⟩ := by cases t <;> rfl
theorem driveTree_tree_other {u : Tree} (h : u ≠ t) : (driveTree t w b s).tree u = s.tree u := by
  cases t <;> cases u <;> first | rfl | exact absurd rfl h
end driveTree

section presentNext
variable (st : Stimulus) (s : State)
@[simp] theorem presentNext_block : (presentNext st s).block = s.block := rfl
@[simp] theorem presentNext_enc : (presentNext st s).enc = s.enc := rfl
@[simp] theorem presentNext_dec : (presentNext st s).dec = s.dec := rfl
@[simp] theorem presentNext_tree (t : Tree) : (presentNext st s).tree t = s.tree t := by cases t <;> rfl
@[simp] theorem presentNext_pending : (presentNext st s).pending = st :: s.pending := rfl
end presentNext

/-- What the environment presents next is what is taken next, and the rest of the state is as it was. -/
@[simp] theorem takeStimulus_presentNext (st : Stimulus) (s : State) : takeStimulus (presentNext st s) = some (st, s) := rfl

/-- Two states with the same ports, tree nodes and pending stimuli are one state: the block's own is one value. -/
theorem State.ext_fields {s t : State} (he : s.enc = t.enc) (hd : s.dec = t.dec) (ht : ∀ u, s.tree u = t.tree u)
    (hp : s.pending = t.pending) : s = t := by
  have h1 := ht .par1
  have h2 := ht .par2
  have h4 := ht .par4
  have h0 := ht .par0
  cases s
  cases t
  simp only [State.tree] at *
  subst he hd h1 h2 h4 h0 hp
  rfl

end Sys2Proof.Machine
end

