-- ==== Sys2Proof/Laws/Step.lean ====
section
/-! SUPPORT. What each operation and a step can do, said once: an operation always answers a next state, which one, what it
leaves alone; what a step does with and without a stimulus pending. -/

namespace Sys2Proof.Machine

/-- What the encoder unit's evaluation is, over the function `ENC`. -/
theorem evalEnc_eq (x : Byte) (s : State) : evalEnc x s = driveEnc x (encCodeword x) s := rfl

/-- What the decoder unit's evaluation is, over the function `DEC`. -/
theorem evalDec_eq (c : Byte) (s : State) : evalDec c s = driveDec c (decResult c) s := rfl

/-- What a tree's evaluation is, over its function. -/
theorem evalTree_eq (t : Tree) (w : Byte) (s : State) : evalTree t w s = driveTree t w (treeValue t w) s := rfl

/-- The state after an operation. -/
def after : Instr → State → State
  | .enc x,  s => evalEnc x s
  | .dec c,  s => evalDec c s
  | .par1 w, s => evalTree .par1 w s
  | .par2 w, s => evalTree .par2 w s
  | .par4 w, s => evalTree .par4 w s
  | .par0 w, s => evalTree .par0 w s

/-- Every operation answers a next state, `after`. -/
theorem exec_eq_after (i : Instr) (s : State) : exec i s = .next (after i s) := by
  cases i <;> rfl

/-- If an operation answers `t`, then `t` is `after`. -/
theorem exec_next_iff {i : Instr} {s t : State} : exec i s = .next t ↔ t = after i s := by
  rw [exec_eq_after]
  exact ⟨fun h => (Host.Outcome.next.inj h).symm, fun h => h ▸ rfl⟩

/-- What the decoder unit drives is `decOutputs` of its input. -/
theorem evalDec_dec (c : Byte) (s : State) : (evalDec c s).dec = ⟨c, (decOutputs c).1, (decOutputs c).2⟩ := by
  rw [evalDec_eq]
  unfold decOutputs
  cases decResult c <;> rfl

theorem after_pending (i : Instr) (s : State) : (after i s).pending = s.pending := by
  cases i <;> simp [after, evalEnc_eq, evalDec_eq, evalTree_eq]

/-- What every unit and tree holds is its input's function once it has evaluated on the input it holds. -/
theorem evalHeld_pending (s : State) : (evalHeld s).pending = s.pending := by
  simp [evalHeld, evalHeldTree, evalTree_eq, evalDec_eq, evalEnc_eq]

/-- What a step can do: it evaluates on the held inputs when nothing is pending, and otherwise the operation of the oldest
stimulus, which it takes away. -/
theorem step_cases (s : State) :
    (s.pending = [] ∧ step s = .next (evalHeld s)) ∨
    (∃ st rest, s.pending = st :: rest ∧ step s = .next (after (decode st) { s with pending := rest })) := by
  unfold step takeStimulus
  cases h : s.pending with
  | nil => exact .inl ⟨rfl, rfl⟩
  | cons st rest => exact .inr ⟨st, rest, rfl, exec_eq_after _ _⟩

@[simp] theorem runSteps_zero (s : State) : runSteps 0 s = .next s := rfl

/-- A run whose first step answers a next state goes on from it. -/
theorem runSteps_succ {k : Nat} {s t : State} (h : step s = .next t) : runSteps (k + 1) s = runSteps k t := by
  rw [runSteps, h]

/-- `runSteps` is the host's run of this machine. -/
theorem runSteps_eq_run (k : Nat) (s : State) : runSteps k s = Host.Core.run Sys2Proof.core k s := by
  induction k generalizing s with
  | zero => rfl
  | succ k ih =>
    obtain ⟨t, h⟩ : ∃ t, step s = .next t := by
      rcases step_cases s with ⟨_, h⟩ | ⟨_, _, _, h⟩ <;> exact ⟨_, h⟩
    have h' : Sys2Proof.core.step s = .next t := h
    rw [runSteps_succ h, ih]
    simp only [Host.Core.run, h']
    rfl

end Sys2Proof.Machine
end

