-- ==== Sys2Proof/Tests/Slice0.lean ====
section
/-! SUPPORT. Tests on fixed values, each with the place of the spec its expected value comes from, and for every statement with
hypotheses a concrete input that meets them. -/

namespace Sys2Proof.Tests
open Sys2Proof.Machine

/-- The state an outcome goes on to. -/
def next? : Host.Outcome State Fault Refusal → Option State
  | .next t    => some t
  | .fault _   => none
  | .refused _ => none

/-- A busy state: no output of it is what its input calls for. -/
def scrambled : State where
  block   := ()
  enc     := ⟨0x13#8, 0x57#8⟩
  dec     := ⟨0x03#8, 0x9#4, true⟩
  par1    := ⟨0x80#8, false⟩
  par2    := ⟨0x80#8, false⟩
  par4    := ⟨0x80#8, false⟩
  par0    := ⟨0x80#8, false⟩
  pending := [⟨.decIn, 0xAE#8⟩, ⟨.tree .par1, 0xAA#8⟩]

/-- A state, not the reset state, in which every output is its input's function (41_encoder.md R110, 42_decoder.md R130 and
40_parity_trees.md R91 to R94, worked examples). -/
def settledState : State where
  block   := ()
  enc     := ⟨0x0B#8, 0xAA#8⟩
  dec     := ⟨0xAE#8, 0xB#4, true⟩
  par1    := ⟨0xAA#8, true⟩
  par2    := ⟨0xAA#8, false⟩
  par4    := ⟨0xAA#8, false⟩
  par0    := ⟨0xAA#8, false⟩
  pending := []

/-! ### The written form: what it refuses, what it reads -/

theorem test_illformed_no_bytes : wellFormedBytes [] = false := by decide
theorem test_illformed_no_site : wellFormedBytes [0xA7#8] = false := by decide
theorem test_illformed_extra_byte : wellFormedBytes [0xA7#8, 0x00#8, 0x01#8] = false := by decide
theorem test_illformed_site : wellFormedBytes [0xA7#8, 0x06#8] = false := by decide
theorem test_truncated_refused : decodeBytes [0xA7#8] = .error .truncated := by decide
theorem test_no_such_site_refused : decodeBytes [0xA7#8, 0x06#8] = .error .noSuchSite := by decide

/-- spec/opcode_table.json row ENC: "xxxxnnnn", x = 1010, n = 0111. -/
theorem test_decode_enc : decodeBytes [0b10100111#8, 0#8] = .ok (.enc 0xA7#8, []) := by decide
/-- Row DEC: "dddpdppq", d = 1011, p4 = 0, p2 = 1, p1 = 1, p0 = 0 (42_decoder.md R130, worked example). -/
theorem test_decode_dec : decodeBytes [0b10101110#8, 1#8] = .ok (.dec 0xAE#8, []) := by decide
/-- Row PAR1: "tututuuu" with every tap 1. -/
theorem test_decode_par1 : decodeBytes [0b10101000#8, 2#8] = .ok (.par1 0xA8#8, []) := by decide
/-- Row PAR2: "ttuutuuu" with every tap 1. -/
theorem test_decode_par2 : decodeBytes [0b11001000#8, 3#8] = .ok (.par2 0xC8#8, []) := by decide
/-- Row PAR4: "tttuuuuu" with every tap 1. -/
theorem test_decode_par4 : decodeBytes [0b11100000#8, 4#8] = .ok (.par4 0xE0#8, []) := by decide
/-- Row PAR0: "tttttttu" with every tap 1. -/
theorem test_decode_par0 : decodeBytes [0b11111110#8, 5#8] = .ok (.par0 0xFE#8, []) := by decide

/-! ### One step each -/

/-- 95_test_vectors.md V1: `ENC(0x0B) = 0xAA`. -/
theorem test_enc_0B : (next? (exec (.enc 0x0B#8) scrambled)).map (·.enc) = some ⟨0x0B#8, 0xAA#8⟩ := by decide
/-- V2: `ENC(0xA7) = 0x69`, the high bits ignored. -/
theorem test_enc_A7 : (next? (exec (.enc 0xA7#8) scrambled)).map (·.enc) = some ⟨0xA7#8, 0x69#8⟩ := by decide
/-- P2: `DEC(0x46) = ok(0x6)`, position 5 corrected. -/
theorem test_dec_46 : (next? (exec (.dec 0x46#8) scrambled)).map (·.dec) = some ⟨0x46#8, 0x6#4, true⟩ := by decide
/-- P3: `DEC(0xD8) = err`. -/
theorem test_dec_D8 : exec (.dec 0xD8#8) scrambled = .next { scrambled with dec := ⟨0xD8#8, Config.errNibble 0xD8#8, false⟩ } := rfl
/-- V0 and F6: `PAR1(0x40) = 0`, `PAR1(0x08) = 1`. -/
theorem test_par1_40 : (next? (exec (.par1 0x40#8) scrambled)).map (·.par1) = some ⟨0x40#8, false⟩ := by decide
theorem test_par1_08 : (next? (exec (.par1 0x08#8) scrambled)).map (·.par1) = some ⟨0x08#8, true⟩ := by decide
/-- V0: `PAR2(0x20) = 0`, `PAR2(0x40) = 1`. -/
theorem test_par2_20 : (next? (exec (.par2 0x20#8) scrambled)).map (·.par2) = some ⟨0x20#8, false⟩ := by decide
theorem test_par2_40 : (next? (exec (.par2 0x40#8) scrambled)).map (·.par2) = some ⟨0x40#8, true⟩ := by decide
/-- V0: `PAR4(0x08) = 0`, `PAR4(0x20) = 1`. -/
theorem test_par4_08 : (next? (exec (.par4 0x08#8) scrambled)).map (·.par4) = some ⟨0x08#8, false⟩ := by decide
theorem test_par4_20 : (next? (exec (.par4 0x20#8) scrambled)).map (·.par4) = some ⟨0x20#8, true⟩ := by decide
/-- V0: `PAR0(0x01) = 0`, `PAR0(0x17) = 1`. -/
theorem test_par0_01 : (next? (exec (.par0 0x01#8) scrambled)).map (·.par0) = some ⟨0x01#8, false⟩ := by decide
theorem test_par0_17 : (next? (exec (.par0 0x17#8) scrambled)).map (·.par0) = some ⟨0x17#8, true⟩ := by decide

/-- A step presents the oldest stimulus: `DEC(0xAE) = ok(0xB)` (R130, worked example), the encoder left alone. -/
theorem test_step_presents :
    (next? (step scrambled)).map (fun t => (t.dec, t.enc, t.pending)) =
      some (⟨0xAE#8, 0xB#4, true⟩, ⟨0x13#8, 0x57#8⟩, [⟨.tree .par1, 0xAA#8⟩]) := by decide
/-- With nothing pending a step makes the outputs the functions of the inputs held: `ENC(0x13) = 0x3C` (V1 row 3), `DEC(0x03)` err. -/
theorem test_step_idle :
    (next? (step { scrambled with pending := [] })).map (fun t => (t.enc, t.dec.decIn, t.dec.decOk, t.par1)) =
      some (⟨0x13#8, 0x3C#8⟩, 0x03#8, false, ⟨0x80#8, true⟩) := by decide
/-- V6 row 0x68: syndrome 0 and the overall parity wrong; V6 row 0x46: syndrome 5. -/
theorem test_wires : syndrome 0x68#8 = 0 ∧ overallCorrect 0x68#8 = false ∧ syndrome 0x46#8 = 5 := by decide

/-! ### Witnesses: for each statement with hypotheses, an input that meets them -/

theorem witness_low_bits : ∀ i, i < 4 → (0xA7#8).getLsbD i = (0x07#8).getLsbD i := by decide
theorem witness_tap_masks : 0x57#8 &&& 0xA8#8 = 0#8 ∧ 0x37#8 &&& 0xC8#8 = 0#8 ∧ 0x1F#8 &&& 0xE0#8 = 0#8 ∧ 0x01#8 &&& 0xFE#8 = 0#8 := by
  decide
/-- The clauses of DecFollowsThePseudocode, DecReturnsProvisionalNibble and DecFailsExactlyInCaseFour. -/
theorem witness_decoder_cases :
    receivedSyndrome 0x00#8 = 0 ∧ (receivedSyndrome 0x02#8 ≠ 0 ∧ receivedOverall 0x02#8 = false) ∧
    (receivedSyndrome 0x03#8 ≠ 0 ∧ receivedOverall 0x03#8 = true) := by decide
theorem witness_provisional : exec (.enc 0x0B#8) scrambled = .next { scrambled with enc := ⟨0x0B#8, 0xAA#8⟩ } := rfl
/-- The four rows of DecisionTableHasOneRowForEveryInput. -/
theorem witness_decision_rows :
    (syndrome 0x00#8 = 0 ∧ overallCorrect 0x00#8 = true) ∧ (syndrome 0x01#8 = 0 ∧ overallCorrect 0x01#8 = false) ∧
    (syndrome 0x80#8 ≠ 0 ∧ overallCorrect 0x80#8 = false) ∧ (syndrome 0x81#8 ≠ 0 ∧ overallCorrect 0x81#8 = true) := by decide
/-- Every syndrome of DecCorrectsByTheSyndromeTable. -/
theorem witness_syndromes : ∀ p ∈ [(0x02#8, 1), (0x04#8, 2), (0x08#8, 3), (0x10#8, 4), (0x20#8, 5), (0x40#8, 6), (0x80#8, 7)],
    receivedOverall p.1 = false ∧ receivedSyndrome p.1 = p.2 := by decide
theorem witness_valid_codeword : validCodeword 0xAA#8 = true ∧ weight 0x81#8 = 2 := by decide
/-- The bounds of SingleErrorCorrectedDoubleErrorDetected and CorrectionIsSilent. -/
theorem witness_positions : (0 < 8 ∧ 7 < 8 ∧ 0 ≠ 7) ∧ validCodeword 0xFF#8 = true := by decide
/-- The clauses of MiscorrectionBeyondTwoFlips: odd, a codeword, neither. -/
theorem witness_many_flips :
    (3 ≤ weight 0x16#8 ∧ weight 0x16#8 % 2 = 1) ∧ (3 ≤ weight 0x0F#8 ∧ validCodeword 0x0F#8 = true) ∧
    (3 ≤ weight 0xE8#8 ∧ weight 0xE8#8 % 2 = 0 ∧ validCodeword 0xE8#8 = false) := by decide
/-- The clauses of DecResultTable, at its corners. -/
theorem witness_table : (decTable.getD 15 []).getD 15 17 < 16 ∧ (decTable.getD 0 []).getD 3 17 = 16 ∧ (decTable.getD 0 []).getD 0 17 < 16 := by
  decide
theorem witness_byte_view : (0x0F#8).toNat < 16 ∧ 4 ≤ 4 := by decide
theorem witness_not_dec : ∀ c, Instr.par0 0xFE#8 ≠ .dec c := by intro c h; cases h
theorem witness_error_then_next :
    exec (.dec 0x03#8) scrambled = .next { scrambled with dec := ⟨0x03#8, Config.errNibble 0x03#8, false⟩ } := rfl
/-- DecAfterAnErrorIsJudgedOnItsOwnOperand: `witness_error_then_next` after the error of 0x03, then one operand of each kind. -/
theorem witness_after_error :
    (receivedSyndrome 0x03#8 ≠ 0 ∧ receivedOverall 0x03#8 = true) ∧ receivedSyndrome 0x99#8 = 0 ∧ receivedOverall 0x02#8 = false ∧
    (receivedSyndrome 0xD8#8 ≠ 0 ∧ receivedOverall 0xD8#8 = true) := by decide
/-- NothingSurvivesNewValuesAtEveryPlace: one stimulus for each place. -/
theorem witness_every_place : ∀ p : Site, ∃ st ∈ ([⟨.encIn, 0x0B#8⟩, ⟨.decIn, 0x03#8⟩, ⟨.tree .par1, 1#8⟩, ⟨.tree .par2, 2#8⟩,
    ⟨.tree .par4, 4#8⟩, ⟨.tree .par0, 8#8⟩] : List Stimulus), st.site = p := by
  intro p
  rcases p with _ | _ | u <;> [skip; skip; cases u] <;> simp
theorem witness_different_places : siteOf (.enc 0x05#8) ≠ siteOf (.dec 0x5B#8) ∧ siteOf (.par1 0#8) ≠ siteOf (.par0 0#8) := by decide
theorem witness_frame : exec (.par2 0x40#8) scrambled = .next { scrambled with par2 := ⟨0x40#8, true⟩ } := rfl
/-- ResultIsIndependentOfTheSchedule: one stimulus before, one of another place after, and some left over. -/
theorem witness_schedule :
    ({ scrambled with pending := [⟨.decIn, 0x03#8⟩, ⟨.encIn, 0x0B#8⟩, ⟨.decIn, 0xAA#8⟩, ⟨.encIn, 0#8⟩] } : State).pending =
      [⟨.decIn, 0x03#8⟩] ++ encode (.enc 0x0B#8) :: ([⟨.decIn, 0xAA#8⟩] ++ [⟨.encIn, 0#8⟩]) ∧
    ∀ st ∈ ([⟨.decIn, 0xAA#8⟩] : List Stimulus), st.site ≠ siteOf (.enc 0x0B#8) := by decide
/-- StepKeepsSettled: a settled state and its step, one that presents a value that raises. -/
theorem witness_settled : Settled { settledState with pending := [⟨.decIn, 0x03#8⟩] } ∧
    step { settledState with pending := [⟨.decIn, 0x03#8⟩] } =
      .next { settledState with dec := ⟨0x03#8, Config.errNibble 0x03#8, false⟩ } :=
  ⟨⟨by decide, by rfl, by intro t; cases t <;> rfl⟩, rfl⟩
/-- IdleStepSettlesAndHolds, with and without its last premise. -/
theorem witness_idle : ({ scrambled with pending := [] } : State).pending = [] ∧ settledState.pending = [] ∧ Settled settledState :=
  ⟨rfl, rfl, ⟨by decide, by rfl, by intro t; cases t <;> rfl⟩⟩
theorem witness_pending : scrambled.pending = ⟨.decIn, 0xAE#8⟩ :: [⟨.tree .par1, 0xAA#8⟩] := rfl
theorem witness_word_read : decodeTableWord 16 0x01AE = some (.dec 0xAE#8) ∧ decodeTableWord 8 0xA7 = some (.enc 0xA7#8) := by decide
theorem witness_bytes_read : decodeStream [0x0B#8, 0#8, 0xAA#8, 1#8] = .ok [.enc 0x0B#8, .dec 0xAA#8] := by decide

end Sys2Proof.Tests
end

section
/-! PROOFS. The encoder unit (spec/41_encoder.md R110 to R113): what the two parity steps do to any vector, bit by bit, then what
`ENC` drives. -/

namespace Sys2Proof.Machine

/-- A tree reads nothing but its taps. -/
theorem treeValue_congr {t : Tree} {v w : Byte} (h : ∀ j ∈ tapsOf t, v.getLsbD j = w.getLsbD j) :
    treeValue t v = treeValue t w := by
  cases t <;> simp only [tapsOf, List.forall_mem_cons] at h <;>
    simp only [treeValue, parity1, parity2, parity4, parity0, h]

/-- A tree does not see a write to a position it has no tap at. -/
theorem treeValue_setBit_of_not_mem_tapsOf {t : Tree} {i : Nat} (hi : i < 8) (ht : i ∉ tapsOf t) (w : Byte) (b : Bool) :
    treeValue t (setBit w i b) = treeValue t w :=
  treeValue_congr fun j hj => by
    rw [getLsbD_setBit w i j b hi, if_neg (ne_of_mem_of_not_mem hj ht)]

/-- R111: the three Hamming parities may be computed together, since no tree reads a position written before it. -/
theorem withHammingParity_eq (w : Byte) :
    withHammingParity w = setBit (setBit (setBit w 1 (parity1 w)) 2 (parity2 w)) 4 (parity4 w) := by
  have h2 (b : Bool) : parity2 (setBit w 1 b) = parity2 w :=
    treeValue_setBit_of_not_mem_tapsOf (t := .par2) (by decide) (by decide) w b
  have h4 (b c : Bool) : parity4 (setBit (setBit w 1 b) 2 c) = parity4 w :=
    (treeValue_setBit_of_not_mem_tapsOf (t := .par4) (by decide) (by decide) (setBit w 1 b) c).trans
      (treeValue_setBit_of_not_mem_tapsOf (t := .par4) (by decide) (by decide) w b)
  rw [withHammingParity, h4, h2]

theorem getLsbD_withHammingParity (w : Byte) (j : Nat) :
    (withHammingParity w).getLsbD j =
      if j = 4 then parity4 w else if j = 2 then parity2 w else if j = 1 then parity1 w else w.getLsbD j := by
  simp [withHammingParity_eq, getLsbD_setBit]

theorem getLsbD_withOverallParity (w : Byte) (j : Nat) :
    (withOverallParity w).getLsbD j = if j = 0 then parity0 w else w.getLsbD j :=
  getLsbD_setBit w 0 j (parity0 w) (by decide)

/-- The valid codewords by the four equations of spec/30_encoding.md R67. -/
theorem validCodeword_iff (w : Byte) : validCodeword w = true ↔
    w.getLsbD 1 = parity1 w ∧ w.getLsbD 2 = parity2 w ∧ w.getLsbD 4 = parity4 w ∧ w.getLsbD 0 = parity0 w := by
  simp [validCodeword, parity1, parity2, parity4, parity0, and_assoc]

/-- The two parity steps of `ENC` make a valid codeword of any vector: each parity position holds its tree's value, and no later
step writes a position that tree reads (R111, R113). -/
theorem validCodeword_withParity (w : Byte) : validCodeword (withOverallParity (withHammingParity w)) = true := by
  rw [validCodeword_iff]
  refine ⟨?_, ?_, ?_, ?_⟩ <;>
    simp only [parity0, parity1, parity2, parity4, getLsbD_withOverallParity, getLsbD_withHammingParity] <;> rfl

/-- The parity steps leave the data positions as they are. -/
theorem getLsbD_withParity_data (w : Byte) (j : Nat) (hj : j ∈ Config.posData) :
    (withOverallParity (withHammingParity w)).getLsbD j = w.getLsbD j := by
  rw [getLsbD_withOverallParity, getLsbD_withHammingParity]
  simp only [Config.posData, List.mem_cons, List.not_mem_nil, or_false] at hj
  rcases hj with rfl | rfl | rfl | rfl <;> rfl

/-- What `ENC` does in every state: it drives the encoder's ports and nothing else. -/
theorem exec_enc (x : Byte) (s : State) : exec (.enc x) s = .next { s with enc := ⟨x, encCodeword x⟩ } :=
  exec_eq_after (.enc x) s

theorem validCodeword_encCodeword (x : Byte) : validCodeword (encCodeword x) = true :=
  validCodeword_withParity (scatter (lowNibble x))

/-- `ENC` keeps the nibble's bits at the data positions (R64). -/
theorem getLsbD_encCodeword_data (x : Byte) :
    (encCodeword x).getLsbD 3 = x.getLsbD 0 ∧ (encCodeword x).getLsbD 5 = x.getLsbD 1 ∧
    (encCodeword x).getLsbD 6 = x.getLsbD 2 ∧ (encCodeword x).getLsbD 7 = x.getLsbD 3 := by
  obtain ⟨-, -, -, h3, -, h5, h6, h7⟩ := getLsbD_scatter (lowNibble x)
  refine ⟨?_, ?_, ?_, ?_⟩ <;> rw [encCodeword, getLsbD_withParity_data _ _ (by decide)]
  · rw [h3, getLsbD_lowNibble x 0 (by decide)]
  · rw [h5, getLsbD_lowNibble x 1 (by decide)]
  · rw [h6, getLsbD_lowNibble x 2 (by decide)]
  · rw [h7, getLsbD_lowNibble x 3 (by decide)]

/-- The corner cases and the worked example of R110. -/
theorem encCodeword_corner_cases :
    encCodeword 0x00#8 = 0x00#8 ∧ encCodeword 0x0F#8 = 0xFF#8 ∧ encCodeword 0xF0#8 = 0x00#8 ∧
    encCodeword 0xA7#8 = 0x69#8 ∧ encCodeword 0x07#8 = 0x69#8 ∧ encCodeword 0x0B#8 = 0xAA#8 := by decide

theorem lowNibble_eq_of_low_bits {x y : Byte} (h : ∀ i, i < 4 → x.getLsbD i = y.getLsbD i) :
    lowNibble x = lowNibble y := by
  apply BitVec.eq_of_getLsbD_eq
  intro i hi
  rw [getLsbD_lowNibble x i hi, getLsbD_lowNibble y i hi, h i hi]

/-- How many members of a list satisfy `p` is even or odd as the XOR of `p` over the list is 0 or 1. -/
theorem length_filter_mod_two {α : Type} (p : α → Bool) (l : List α) :
    (l.filter p).length % 2 = (l.foldr (fun i acc => p i ^^ acc) false).toNat := by
  induction l with
  | nil => rfl
  | cons a l ih =>
    rw [List.foldr_cons]
    cases ha : p a
    · simp [ha, ih]
    · cases hx : l.foldr (fun i acc => p i ^^ acc) false <;> simp [ha, hx] at ih ⊢ <;> omega

/-- The number of ones of a byte is even or odd as the XOR of its eight bits is 0 or 1. -/
theorem weight_mod_two (w : Byte) :
    weight w % 2 = (w.getLsbD 0 ^^ w.getLsbD 1 ^^ w.getLsbD 2 ^^ w.getLsbD 3 ^^ w.getLsbD 4 ^^ w.getLsbD 5 ^^
      w.getLsbD 6 ^^ w.getLsbD 7).toNat := by
  rw [weight, onesOf, length_filter_mod_two]
  simp [List.range_succ]

/-- In a valid codeword the overall parity bit cancels the XOR of the other seven (R113). -/
theorem xor_bits_of_validCodeword {w : Byte} (h : validCodeword w = true) :
    (w.getLsbD 0 ^^ w.getLsbD 1 ^^ w.getLsbD 2 ^^ w.getLsbD 3 ^^ w.getLsbD 4 ^^ w.getLsbD 5 ^^
      w.getLsbD 6 ^^ w.getLsbD 7) = false := by
  obtain ⟨-, -, -, h0⟩ := (validCodeword_iff w).mp h
  calc _ = (w.getLsbD 0 ^^ parity0 w) := by simp only [parity0, Bool.xor_assoc]
    _ = false := by rw [h0, Bool.xor_self]

/-- Settles O1: the data positions from `scatter`, the parities from validity, the fixed operands by evaluation. -/
theorem encDrivesCodewordOfLowNibble : Obligations.EncDrivesCodewordOfLowNibble := by
  intro s x
  obtain ⟨h3, h5, h6, h7⟩ := getLsbD_encCodeword_data x
  obtain ⟨h1, h2, h4, h0⟩ := (validCodeword_iff _).mp (validCodeword_encCodeword x)
  obtain ⟨c00, c0F, cF0, cA7, c07, c0B⟩ := encCodeword_corner_cases
  exact ⟨encCodeword x, exec_enc x s, h3, h5, h6, h7, h1, h2, h4, h0,
    (· ▸ c00), (· ▸ c0F), (· ▸ cF0), (· ▸ cA7), (· ▸ c07), (· ▸ c0B)⟩

/-- Settles O2: `ENC` reads its operand through `lowNibble` alone. -/
theorem encResultDependsOnLowBitsAlone : Obligations.EncResultDependsOnLowBitsAlone := by
  intro s s' x y h
  have hxy : encCodeword y = encCodeword x := by
    rw [encCodeword, encCodeword, lowNibble_eq_of_low_bits h]
  exact ⟨encCodeword x, exec_enc x s, hxy ▸ exec_enc y s'⟩

/-- Settles O4: a valid codeword has XOR 0, and its weight has the parity of that XOR. -/
theorem encResultIsValidCodeword : Obligations.EncResultIsValidCodeword := by
  intro s x
  have hv := validCodeword_encCodeword x
  have hx := xor_bits_of_validCodeword hv
  exact ⟨encCodeword x, exec_enc x s, hv, hx, by rw [weight_mod_two, hx]; rfl⟩

end Sys2Proof.Machine
end

section
/-! PROOFS. The decoder unit (spec/42_decoder.md R130 to R137, R141): what `DEC` drives in each case of its table, the checks bit by
bit, and the checks as linear functions, so that on a codeword they see the flipped positions alone. -/

namespace Sys2Proof.Machine

/-! ### Nibbles -/

theorem nibble_eq_of_bits {m n : Nibble} (h0 : m.getLsbD 0 = n.getLsbD 0) (h1 : m.getLsbD 1 = n.getLsbD 1)
    (h2 : m.getLsbD 2 = n.getLsbD 2) (h3 : m.getLsbD 3 = n.getLsbD 3) : m = n := by
  apply BitVec.eq_of_getLsbD_eq
  intro i hi
  match i, hi with
  | 0, _ => exact h0
  | 1, _ => exact h1
  | 2, _ => exact h2
  | 3, _ => exact h3

theorem getLsbD_nibbleOf : ∀ b3 b2 b1 b0 : Bool,
    (nibbleOf b3 b2 b1 b0).getLsbD 0 = b0 ∧ (nibbleOf b3 b2 b1 b0).getLsbD 1 = b1 ∧
    (nibbleOf b3 b2 b1 b0).getLsbD 2 = b2 ∧ (nibbleOf b3 b2 b1 b0).getLsbD 3 = b3 := by decide

/-- The machine's `gather` is the data bits as R131 writes them out. -/
theorem gather_eq_dataBits (w : Byte) : gather w = dataBits w := by
  obtain ⟨g0, g1, g2, g3⟩ := getLsbD_gather w
  obtain ⟨d0, d1, d2, d3⟩ := getLsbD_nibbleOf (w.getLsbD 7) (w.getLsbD 6) (w.getLsbD 5) (w.getLsbD 3)
  exact nibble_eq_of_bits (g0.trans d0.symm) (g1.trans d1.symm) (g2.trans d2.symm) (g3.trans d3.symm)

/-- `gather` undoes `ENC`: no parity step writes a data position. -/
theorem gather_encCodeword (x : Byte) : gather (encCodeword x) = lowNibble x := by
  obtain ⟨g0, g1, g2, g3⟩ := getLsbD_gather (encCodeword x)
  obtain ⟨e3, e5, e6, e7⟩ := getLsbD_encCodeword_data x
  apply nibble_eq_of_bits
  · rw [g0, e3, getLsbD_lowNibble x 0 (by decide)]
  · rw [g1, e5, getLsbD_lowNibble x 1 (by decide)]
  · rw [g2, e6, getLsbD_lowNibble x 2 (by decide)]
  · rw [g3, e7, getLsbD_lowNibble x 3 (by decide)]

/-- Position 0 holds no data bit, so a flip there is not seen by `gather`. -/
theorem gather_flipBit_zero (w : Byte) : gather (flipBit w 0) = gather w := by
  simp only [gather, getLsbD_flipBit w 0 _ (by decide), OfNat.ofNat_ne_zero, decide_false, Bool.xor_false]

/-! ### The decision table (R134) -/

/-- Cases 1 and 2: whatever the overall check says, syndrome 0 answers the provisional nibble. -/
theorem decResult_of_syndrome_eq_zero {c : Byte} (h : syndrome c = 0) : decResult c = .ok (gather c) :=
  if_pos h

/-- Case 3: the position numbered by the syndrome is flipped. -/
theorem decResult_of_overallCorrect_eq_false {c : Byte} (h : syndrome c ≠ 0) (ho : overallCorrect c = false) :
    decResult c = .ok (gather (flipBit c (syndrome c).toNat)) :=
  (if_neg h).trans (if_pos ho)

theorem decResult_eq_err_iff (c : Byte) : decResult c = .err ↔ syndrome c ≠ 0 ∧ overallCorrect c = true := by
  by_cases h : syndrome c = 0
  · simp [decResult_of_syndrome_eq_zero h, h]
  · cases ho : overallCorrect c
    · simp [decResult_of_overallCorrect_eq_false h ho]
    · simp [decResult, ho]

theorem exec_dec_of_decResult_eq_ok {c : Byte} {n : Nibble} (h : decResult c = .ok n) (s : State) :
    exec (.dec c) s = .next { s with dec := ⟨c, n, true⟩ } := by
  rw [exec_eq_after, after, evalDec_eq, h]
  rfl

theorem exec_dec_of_decResult_eq_err {c : Byte} (h : decResult c = .err) (s : State) :
    exec (.dec c) s = .next { s with dec := ⟨c, Config.errNibble c, false⟩ } := by
  rw [exec_eq_after, after, evalDec_eq, h]
  rfl

/-- `dec_ok` is 0 exactly when the function-level result is the error. -/
theorem evalDec_decOk_eq_false_iff (c : Byte) (s : State) : (evalDec c s).dec.decOk = false ↔ decResult c = .err := by
  rw [evalDec_dec, decOutputs]
  cases decResult c <;> simp

/-! ### The checks bit by bit (R132, R133) -/

theorem overallCorrect_eq_receivedOverall (c : Byte) : overallCorrect c = receivedOverall c := rfl

/-- The running total of step 3 never wraps: at most 1 + 2 + 4. -/
theorem toNat_addChecks : ∀ e1 b1 e2 b2 e4 b4 : Bool,
    (addCheck (addCheck (addCheck 0 e1 b1 1) e2 b2 2) e4 b4 4).toNat =
      (if e1 != b1 then 1 else 0) + (if e2 != b2 then 2 else 0) + (if e4 != b4 then 4 else 0) := by decide

theorem toNat_syndrome (c : Byte) : (syndrome c).toNat = receivedSyndrome c :=
  toNat_addChecks _ _ _ _ _ _

theorem syndrome_eq_zero_iff (c : Byte) : syndrome c = 0 ↔ receivedSyndrome c = 0 := by
  rw [← toNat_syndrome, ← BitVec.toNat_inj]
  rfl

/-! ### The checks are linear -/

/-- Each check of step 3 decides one bit of the total. -/
theorem addChecks_eq_append : ∀ e1 b1 e2 b2 e4 b4 : Bool,
    addCheck (addCheck (addCheck 0 e1 b1 1) e2 b2 2) e4 b4 4 =
      BitVec.ofBool (e4 ^^ b4) ++ BitVec.ofBool (e2 ^^ b2) ++ BitVec.ofBool (e1 ^^ b1) := by decide

theorem syndrome_eq_append (c : Byte) :
    syndrome c = BitVec.ofBool (parity4 c ^^ c.getLsbD 4) ++ BitVec.ofBool (parity2 c ^^ c.getLsbD 2) ++
      BitVec.ofBool (parity1 c ^^ c.getLsbD 1) :=
  addChecks_eq_append _ _ _ _ _ _

/-- A tree is the XOR over its taps. -/
theorem treeValue_eq_foldr (t : Tree) (w : Byte) :
    treeValue t w = (tapsOf t).foldr (fun i acc => w.getLsbD i ^^ acc) false := by
  cases t <;> simp only [treeValue, parity1, parity2, parity4, parity0, tapsOf, List.foldr_cons, List.foldr_nil,
    Bool.xor_assoc, Bool.xor_false]

theorem xor_xor_xor_swap : ∀ a b c d : Bool, (a ^^ b ^^ (c ^^ d)) = (a ^^ c ^^ (b ^^ d)) := by decide

theorem foldr_getLsbD_xor (v w : Byte) (l : List Nat) :
    l.foldr (fun i acc => (v ^^^ w).getLsbD i ^^ acc) false =
      (l.foldr (fun i acc => v.getLsbD i ^^ acc) false ^^ l.foldr (fun i acc => w.getLsbD i ^^ acc) false) := by
  induction l with
  | nil => rfl
  | cons i l ih => rw [List.foldr_cons, ih, BitVec.getLsbD_xor, xor_xor_xor_swap]; rfl

theorem treeValue_xor (t : Tree) (v w : Byte) : treeValue t (v ^^^ w) = (treeValue t v ^^ treeValue t w) := by
  rw [treeValue_eq_foldr, treeValue_eq_foldr, treeValue_eq_foldr, foldr_getLsbD_xor]

/-- What one check compares is linear. -/
theorem check_xor (t : Tree) (v w : Byte) (p : Nat) :
    (treeValue t (v ^^^ w) ^^ (v ^^^ w).getLsbD p) =
      ((treeValue t v ^^ v.getLsbD p) ^^ (treeValue t w ^^ w.getLsbD p)) := by
  rw [treeValue_xor, BitVec.getLsbD_xor, xor_xor_xor_swap]

theorem append_ofBool_xor : ∀ a b c a' b' c' : Bool,
    BitVec.ofBool (a ^^ a') ++ BitVec.ofBool (b ^^ b') ++ BitVec.ofBool (c ^^ c') =
      (BitVec.ofBool a ++ BitVec.ofBool b ++ BitVec.ofBool c) ^^^
        (BitVec.ofBool a' ++ BitVec.ofBool b' ++ BitVec.ofBool c') := by decide

theorem syndrome_xor (v w : Byte) : syndrome (v ^^^ w) = syndrome v ^^^ syndrome w := by
  have h1 := check_xor .par1 v w 1
  have h2 := check_xor .par2 v w 2
  have h4 := check_xor .par4 v w 4
  simp only [treeValue] at h1 h2 h4
  rw [syndrome_eq_append, h1, h2, h4, append_ofBool_xor, ← syndrome_eq_append, ← syndrome_eq_append]

theorem overallCorrect_xor (v w : Byte) : overallCorrect (v ^^^ w) = (overallCorrect v == overallCorrect w) := by
  have h0 := check_xor .par0 v w 0
  have hc (c : Byte) : overallCorrect c = !(treeValue .par0 c ^^ c.getLsbD 0) := by
    rw [overallCorrect, treeValue]
    cases parity0 c <;> cases c.getLsbD 0 <;> rfl
  rw [hc, hc, hc, h0]
  cases treeValue .par0 v ^^ v.getLsbD 0 <;> cases treeValue .par0 w ^^ w.getLsbD 0 <;> rfl

/-- On a valid codeword no check fails. -/
theorem checks_of_validCodeword {v : Byte} (h : validCodeword v = true) : syndrome v = 0 ∧ overallCorrect v = true := by
  obtain ⟨h1, h2, h4, h0⟩ := (validCodeword_iff v).mp h
  refine ⟨?_, by rw [overallCorrect, h0, beq_self_eq_true]⟩
  rw [syndrome_eq_append, h1, h2, h4]
  simp only [Bool.xor_self]
  rfl

/-- On a valid codeword with error pattern `e` the checks are those of `e` alone (R139). -/
theorem checks_xor_of_validCodeword {v : Byte} (h : validCodeword v = true) (e : Byte) :
    syndrome (v ^^^ e) = syndrome e ∧ overallCorrect (v ^^^ e) = overallCorrect e := by
  obtain ⟨hs, ho⟩ := checks_of_validCodeword h
  rw [syndrome_xor, overallCorrect_xor, hs, ho]
  exact ⟨BitVec.zero_xor, Bool.true_beq _⟩

/-! ### One and two flipped positions -/

/-- The syndrome of one flipped position is its number, and the overall check fails. -/
theorem checks_oneHot : ∀ i, i < 8 → (syndrome (oneHot 8 i)).toNat = i ∧ overallCorrect (oneHot 8 i) = false := by
  decide

/-- Two distinct flipped positions: the syndrome is not 0, as their numbers differ, and the overall check holds. -/
theorem checks_oneHot_xor_oneHot {i j : Nat} (hi : i < 8) (hj : j < 8) (hij : i ≠ j) :
    syndrome (oneHot 8 i ^^^ oneHot 8 j) ≠ 0 ∧ overallCorrect (oneHot 8 i ^^^ oneHot 8 j) = true := by
  obtain ⟨si, oi⟩ := checks_oneHot i hi
  obtain ⟨sj, oj⟩ := checks_oneHot j hj
  rw [syndrome_xor, overallCorrect_xor, oi, oj]
  refine ⟨fun h => hij ?_, rfl⟩
  rw [← si, ← sj, BitVec.xor_eq_zero_iff.mp h]

theorem decResult_of_validCodeword {v : Byte} (h : validCodeword v = true) : decResult v = .ok (gather v) :=
  decResult_of_syndrome_eq_zero (checks_of_validCodeword h).1

/-- A flipped position of a valid codeword: its number is the syndrome, and the overall check fails. -/
theorem checks_flipBit_of_validCodeword {v : Byte} (h : validCodeword v = true) {i : Nat} (hi : i < 8) :
    (syndrome (flipBit v i)).toNat = i ∧ overallCorrect (flipBit v i) = false := by
  obtain ⟨hs, ho⟩ := checks_xor_of_validCodeword h (oneHot 8 i)
  rw [flipBit, hs, ho]
  exact checks_oneHot i hi

/-- R141 (b): a flip of position 0 has syndrome 0 and touches no data; any other is flipped back. -/
theorem decResult_flipBit_of_validCodeword {v : Byte} (h : validCodeword v = true) {i : Nat} (hi : i < 8) :
    decResult (flipBit v i) = .ok (gather v) := by
  obtain ⟨hs, ho⟩ := checks_flipBit_of_validCodeword h hi
  by_cases h0 : syndrome (flipBit v i) = 0
  · have hi0 : i = 0 := hs.symm.trans (congrArg BitVec.toNat h0)
    rw [decResult_of_syndrome_eq_zero h0, hi0, gather_flipBit_zero]
  · rw [decResult_of_overallCorrect_eq_false h0 ho, hs, flipBit_flipBit]

/-- R141 (c): two flips are always detected. -/
theorem decResult_flipBit_flipBit_of_validCodeword {v : Byte} (h : validCodeword v = true) {i j : Nat} (hi : i < 8)
    (hj : j < 8) (hij : i ≠ j) : decResult (flipBit (flipBit v i) j) = .err := by
  obtain ⟨hs, ho⟩ := checks_xor_of_validCodeword h (oneHot 8 i ^^^ oneHot 8 j)
  obtain ⟨hse, hoe⟩ := checks_oneHot_xor_oneHot hi hj hij
  rw [decResult_eq_err_iff, flipBit, flipBit, BitVec.xor_assoc, hs, ho]
  exact ⟨hse, hoe⟩

/-! ### The statements -/

/-- The corner cases and the worked example of R130. -/
theorem decResult_corner_cases :
    (∀ p ∈ ([(0x00#8, 0x0#4), (0x01#8, 0x0#4), (0x02#8, 0x0#4), (0x08#8, 0x0#4), (0x80#8, 0x0#4), (0xFF#8, 0xF#4),
        (0x7F#8, 0xF#4), (0xAE#8, 0xB#4)] : List (Byte × Nibble)), decResult p.1 = .ok p.2) ∧
    decResult 0x03#8 = .err := by
  simp only [List.forall_mem_cons]
  refine ⟨⟨?_, ?_, ?_, ?_, ?_, ?_, ?_, ?_, List.forall_mem_nil _⟩, ?_⟩ <;> decide

theorem length_filter_case_four :
    (allBytes.filter fun c => receivedSyndrome c != 0 && receivedOverall c).length = 112 := by
  decide +kernel

/-- Exactly one of the four conditions on two wires holds. -/
theorem count_true_rows : ∀ z o : Bool, [z && o, z && !o, !z && !o, !z && o].count true = 1 := by decide

/-- Settles O19: the rows are the cases of `decResult`, with `gather` written out. -/
theorem decisionTableHasOneRowForEveryInput : Obligations.DecisionTableHasOneRowForEveryInput := by
  intro s c
  have row12 (h : syndrome c = 0) : exec (.dec c) s = .next { s with dec := ⟨c, dataBits c, true⟩ } :=
    gather_eq_dataBits c ▸ exec_dec_of_decResult_eq_ok (decResult_of_syndrome_eq_zero h) s
  refine ⟨fun h _ => row12 h, fun h _ => row12 h, fun h ho => ?_, fun h ho => ?_, count_true_rows _ _⟩
  · rw [exec_dec_of_decResult_eq_ok (decResult_of_overallCorrect_eq_false h ho), gather_eq_dataBits, flipBit, oneHot]
  · exact exec_dec_of_decResult_eq_err ((decResult_eq_err_iff c).mpr ⟨h, ho⟩) s

/-- Settles O17: the decision table read through the checks written out, and the fixed operands by evaluation. -/
theorem decFollowsThePseudocode : Obligations.DecFollowsThePseudocode := by
  refine ⟨fun s c => ?_, length_filter_case_four, fun s => ?_⟩
  · obtain ⟨row1, row2, row3, row4, -⟩ := decisionTableHasOneRowForEveryInput s c
    simp only [ne_eq, syndrome_eq_zero_iff, toNat_syndrome, overallCorrect_eq_receivedOverall] at row1 row2 row3 row4
    refine ⟨fun h => ?_, row3, row4⟩
    cases ho : receivedOverall c
    · exact row2 h ho
    · exact row1 h ho
  · obtain ⟨hok, herr⟩ := decResult_corner_cases
    exact ⟨fun p hp => exec_dec_of_decResult_eq_ok (hok p hp) s, exec_dec_of_decResult_eq_err herr s⟩

/-- Settles O18: the provisional nibble is `gather c`, and `ENC` drives `encCodeword x` alone. -/
theorem decReturnsProvisionalNibble : Obligations.DecReturnsProvisionalNibble := by
  intro s c
  obtain ⟨g0, g1, g2, g3⟩ := getLsbD_gather c
  refine ⟨gather c, g0, g1, g2, g3, fun h => ?_, fun x hx => ?_⟩
  · exact exec_dec_of_decResult_eq_ok (decResult_of_syndrome_eq_zero ((syndrome_eq_zero_iff c).mpr h)) s
  · have hc : c = encCodeword x := congrArg (·.enc.encOut) (exec_next_iff.mp hx)
    rw [hc, gather_encCodeword]

/-- Settles O21: the state of the error has `dec_ok` 0, and only case 4 gives that. -/
theorem decFailsExactlyInCaseFour : Obligations.DecFailsExactlyInCaseFour := by
  intro s c
  have hcase : decResult c = .err ↔ receivedSyndrome c ≠ 0 ∧ receivedOverall c = true := by
    rw [decResult_eq_err_iff, Ne, syndrome_eq_zero_iff, overallCorrect_eq_receivedOverall]
  have hok := (evalDec_decOk_eq_false_iff c s).trans hcase
  refine ⟨⟨fun h => hok.mp ?_, fun h => exec_dec_of_decResult_eq_err (hcase.mpr h) s⟩,
    evalDec c s, exec_eq_after (.dec c) s, hok⟩
  exact (congrArg (·.dec.decOk) (exec_next_iff.mp h)).symm

/-- Settles O24: the checks of a codeword with flips are those of the flips alone, and `gather` undoes `ENC`. -/
theorem singleErrorCorrectedDoubleErrorDetected : Obligations.SingleErrorCorrectedDoubleErrorDetected := by
  intro s x
  have hv := validCodeword_encCodeword x
  refine ⟨encCodeword x, exec_enc x s, fun s' => ?_⟩
  rw [← gather_encCodeword x]
  exact ⟨exec_dec_of_decResult_eq_ok (decResult_of_validCodeword hv) s',
    fun i hi => exec_dec_of_decResult_eq_ok (decResult_flipBit_of_validCodeword hv hi) s',
    fun i j hi hj hij => exec_dec_of_decResult_eq_err (decResult_flipBit_flipBit_of_validCodeword hv hi hj hij) s'⟩

end Sys2Proof.Machine
end

section
/-! PROOFS. The one error (spec/60_exceptions.md R161 to R165): no operation but `DEC` touches the decoder's ports, and a `DEC`
writes all of them from its own operand, so nothing of an error reaches the next. -/

namespace Sys2Proof.Machine

theorem evalTree_dec (u : Tree) (w : Byte) (s : State) : (evalTree u w s).dec = s.dec := by
  rw [evalTree_eq, driveTree_dec]

/-- The decoder's ports are written by `DEC` alone (R162). -/
theorem after_dec_of_ne_dec {i : Instr} (h : ∀ c, i ≠ .dec c) (s : State) : (after i s).dec = s.dec := by
  cases i with
  | enc x => rw [after, evalEnc_eq, driveEnc_dec]
  | dec c => exact absurd rfl (h c)
  | par1 w => exact evalTree_dec .par1 w s
  | par2 w => exact evalTree_dec .par2 w s
  | par4 w => exact evalTree_dec .par4 w s
  | par0 w => exact evalTree_dec .par0 w s

/-- Settles O32: the state an operation answers is `after`, and only `DEC` writes the decoder's ports there. -/
theorem nothingButDecRaises : Obligations.NothingButDecRaises :=
  fun s i => ⟨after i s, exec_eq_after i s, fun h => after_dec_of_ne_dec h s⟩

/-- The error is case 4 of R130's table, its checks written out bit by bit. -/
theorem decResult_eq_err_iff_received (c : Byte) :
    decResult c = .err ↔ receivedSyndrome c ≠ 0 ∧ receivedOverall c = true := by
  rw [decResult_eq_err_iff, Ne, syndrome_eq_zero_iff, overallCorrect_eq_receivedOverall]

/-- Settles O49: the state after the error differs from `s` in the decoder's ports alone, which the next `DEC` writes again, from
`decResult d` in either state. -/
theorem decAfterAnErrorIsJudgedOnItsOwnOperand : Obligations.DecAfterAnErrorIsJudgedOnItsOwnOperand := by
  intro s t c d hsyn hover hct
  have hc : decResult c = .err := (decResult_eq_err_iff_received c).mpr ⟨hsyn, hover⟩
  obtain rfl : t = { s with dec := ⟨c, Config.errNibble c, false⟩ } :=
    Host.Outcome.next.inj (hct.symm.trans (exec_dec_of_decResult_eq_err hc s))
  refine ⟨rfl, fun hanswers => ?_, fun hsyn' hover' => ?_⟩
  · cases hd : decResult d with
    | ok n => exact ⟨n, exec_dec_of_decResult_eq_ok hd _, exec_dec_of_decResult_eq_ok hd s⟩
    | err =>
      obtain ⟨hsyn', hover'⟩ := (decResult_eq_err_iff_received d).mp hd
      simp [hsyn', hover'] at hanswers
  · have hd : decResult d = .err := (decResult_eq_err_iff_received d).mpr ⟨hsyn', hover'⟩
    exact ⟨_, _, exec_dec_of_decResult_eq_err hd _, exec_dec_of_decResult_eq_err hd s⟩

end Sys2Proof.Machine
end

section
/-! PROOFS. Places and runs (spec/10_state.md R20, R21; spec/20_memory.md R43, R46; spec/60_exceptions.md R170): an operation writes
what stands at its own place, from its operand alone, and leaves every other place. So a run is the fold of its operations, and
what stands at a place after it is what the last operation of that place left there. -/

namespace Sys2Proof.Machine

/-! ### Selection (R70) -/

theorem siteOf_decode (st : Stimulus) : siteOf (decode st) = st.site := by
  obtain ⟨p, v⟩ := st
  cases p with
  | encIn => rfl
  | decIn => rfl
  | tree u => cases u <;> rfl

theorem operandOf_decode (st : Stimulus) : operandOf (decode st) = st.value := by
  obtain ⟨p, v⟩ := st
  cases p with
  | encIn => rfl
  | decIn => rfl
  | tree u => cases u <;> rfl

theorem decode_encode (i : Instr) : decode (encode i) = i := by
  cases i <;> rfl

theorem after_decode_tree (u : Tree) (w : Byte) (s : State) :
    after (decode ⟨.tree u, w⟩) s = driveTree u w (treeValue u w) s := by
  cases u <;> rfl

/-- Every operation is `ENC`, `DEC` or a tree, evaluated at its place. -/
theorem after_cases (i : Instr) :
    (∃ x, siteOf i = .encIn ∧ operandOf i = x ∧ ∀ s, after i s = driveEnc x (encCodeword x) s) ∨
    (∃ c, siteOf i = .decIn ∧ operandOf i = c ∧ ∀ s, after i s = driveDec c (decResult c) s) ∨
    (∃ u w, siteOf i = .tree u ∧ operandOf i = w ∧ ∀ s, after i s = driveTree u w (treeValue u w) s) := by
  rw [← decode_encode i]
  obtain ⟨p, v⟩ := encode i
  rw [siteOf_decode, operandOf_decode]
  cases p with
  | encIn => exact .inl ⟨v, rfl, rfl, evalEnc_eq v⟩
  | decIn => exact .inr (.inl ⟨v, rfl, rfl, evalDec_eq v⟩)
  | tree u => exact .inr (.inr ⟨u, v, rfl, rfl, after_decode_tree u v⟩)

/-! ### What stands at a place -/

theorem agreeAt_refl (p : Site) (s : State) : agreeAt p s s := by
  cases p <;> rfl

theorem agreeAt.symm {p : Site} {s t : State} (h : agreeAt p s t) : agreeAt p t s := by
  cases p <;> exact Eq.symm h

theorem agreeAt.trans {p : Site} {s t u : State} (h : agreeAt p s t) (h' : agreeAt p t u) : agreeAt p s u := by
  cases p <;> exact Eq.trans h h'

/-- A state is what stands at its places and what is pending. -/
theorem State.ext_agreeAt {s t : State} (h : ∀ p, agreeAt p s t) (hp : s.pending = t.pending) : s = t :=
  State.ext_fields (h .encIn) (h .decIn) (fun u => h (.tree u)) hp

theorem ports_eq_iff {s t : State} : s.ports = t.ports ↔ agreeAt .encIn s t ∧ agreeAt .decIn s t :=
  Prod.mk_inj

/-- The frame of an operation: every place but its own. -/
theorem agreeAt_after_of_ne {i : Instr} {p : Site} (h : p ≠ siteOf i) (s : State) : agreeAt p (after i s) s := by
  obtain ⟨x, hi, -, ha⟩ | ⟨c, hi, -, ha⟩ | ⟨u, w, hi, -, ha⟩ := after_cases i <;> rw [hi] at h <;> rw [ha s]
  · cases p with
    | encIn => exact absurd rfl h
    | decIn => exact driveEnc_dec ..
    | tree v => exact driveEnc_tree ..
  · cases p with
    | encIn => exact driveDec_enc ..
    | decIn => exact absurd rfl h
    | tree v => exact driveDec_tree ..
  · cases p with
    | encIn => exact driveTree_enc ..
    | decIn => exact driveTree_dec ..
    | tree v => exact driveTree_tree_other u w _ s fun hv => h (congrArg Site.tree hv)

theorem driveDec_dec (c : Byte) (s : State) :
    (driveDec c (decResult c) s).dec = ⟨c, (decOutputs c).1, (decOutputs c).2⟩ :=
  evalDec_dec c s

/-- What an operation leaves at its own place does not depend on the state it is evaluated in. -/
theorem agreeAt_after_self (i : Instr) (s s' : State) : agreeAt (siteOf i) (after i s) (after i s') := by
  obtain ⟨x, hi, -, ha⟩ | ⟨c, hi, -, ha⟩ | ⟨u, w, hi, -, ha⟩ := after_cases i <;> rw [hi, ha, ha]
  · rfl
  · exact (driveDec_dec c s).trans (driveDec_dec c s').symm
  · exact (driveTree_tree_self ..).trans (driveTree_tree_self ..).symm

/-- Where two states agree they agree after the same operation. -/
theorem agreeAt.after {p : Site} {s t : State} (h : agreeAt p s t) (i : Instr) : agreeAt p (after i s) (after i t) := by
  by_cases hp : p = siteOf i
  · exact hp ▸ agreeAt_after_self i s t
  · exact ((agreeAt_after_of_ne hp s).trans h).trans (agreeAt_after_of_ne hp t).symm

/-- Of two operations of one place only the later one is left. -/
theorem after_after_of_siteOf_eq {i j : Instr} (h : siteOf i = siteOf j) (s : State) :
    after j (after i s) = after j s := by
  refine State.ext_agreeAt (fun p => ?_) (by simp only [after_pending])
  by_cases hp : p = siteOf j
  · exact hp ▸ agreeAt_after_self j _ _
  · exact (agreeAt_after_of_ne (h ▸ hp) s).after j

theorem after_comm {i j : Instr} (h : siteOf i ≠ siteOf j) (s : State) :
    after j (after i s) = after i (after j s) := by
  refine State.ext_agreeAt (fun p => ?_) (by simp only [after_pending])
  by_cases hp : p = siteOf j
  · subst hp
    exact (agreeAt_after_self j _ s).trans (agreeAt_after_of_ne h.symm (after j s)).symm
  · exact (agreeAt_after_of_ne hp (after i s)).trans ((agreeAt_after_of_ne hp s).symm.after i)

/-! ### Runs -/

/-- The state after the operations of a list of stimuli, evaluated one after the other. -/
def afterStimuli (l : List Stimulus) (s : State) : State := l.foldl (fun s st => after (decode st) s) s

@[simp] theorem afterStimuli_nil (s : State) : afterStimuli [] s = s := rfl

@[simp] theorem afterStimuli_cons (st : Stimulus) (l : List Stimulus) (s : State) :
    afterStimuli (st :: l) s = afterStimuli l (after (decode st) s) := rfl

theorem afterStimuli_append (l m : List Stimulus) (s : State) :
    afterStimuli (l ++ m) s = afterStimuli m (afterStimuli l s) :=
  List.foldl_append

theorem afterStimuli_pending (l : List Stimulus) (s : State) : (afterStimuli l s).pending = s.pending := by
  induction l generalizing s with
  | nil => rfl
  | cons st l ih => rw [afterStimuli_cons, ih, after_pending]

/-- Where two states agree they agree after the same stimuli. -/
theorem agreeAt.afterStimuli {p : Site} {s t : State} (h : agreeAt p s t) (l : List Stimulus) :
    agreeAt p (afterStimuli l s) (afterStimuli l t) := by
  induction l generalizing s t with
  | nil => exact h
  | cons st l ih => exact ih (h.after (decode st))

/-- Stimuli may be left out that are of other places. -/
theorem agreeAt_afterStimuli_filter {p : Site} {q : Stimulus → Bool} {l : List Stimulus}
    (hq : ∀ st ∈ l, q st = false → st.site ≠ p) (s : State) :
    agreeAt p (afterStimuli l s) (afterStimuli (l.filter q) s) := by
  induction l generalizing s with
  | nil => exact agreeAt_refl p s
  | cons st l ih =>
    rw [List.forall_mem_cons] at hq
    obtain ⟨hst, hl⟩ := hq
    rw [afterStimuli_cons]
    cases h : q st
    · have hne : p ≠ siteOf (decode st) := siteOf_decode st ▸ (hst h).symm
      rw [List.filter_cons_of_neg (by simp [h])]
      exact ((agreeAt_after_of_ne hne s).afterStimuli l).trans (ih hl s)
    · rw [List.filter_cons_of_pos h]
      exact ih hl _

theorem agreeAt_afterStimuli_of_ne {p : Site} {l : List Stimulus} (h : ∀ st ∈ l, st.site ≠ p) (s : State) :
    agreeAt p (afterStimuli l s) s := by
  have := agreeAt_afterStimuli_filter (q := fun _ => false) (fun st hst _ => h st hst) s
  rwa [List.filter_false] at this

/-- Once a place has been given a value, what stands there does not depend on the state before. -/
theorem agreeAt_afterStimuli_of_mem {p : Site} {l : List Stimulus} (h : ∃ st ∈ l, st.site = p) (s s' : State) :
    agreeAt p (afterStimuli l s) (afterStimuli l s') := by
  obtain ⟨st, hst, rfl⟩ := h
  obtain ⟨a, b, rfl⟩ := List.append_of_mem hst
  rw [afterStimuli_append, afterStimuli_append, afterStimuli_cons, afterStimuli_cons, ← siteOf_decode st]
  exact (agreeAt_after_self (decode st) _ _).afterStimuli b

/-- What is pending makes no difference to an operation. -/
theorem after_with_pending (i : Instr) (s : State) (l : List Stimulus) :
    after i { s with pending := l } = { after i s with pending := l } := by
  have h (p : Site) (t : State) : agreeAt p { t with pending := l } t := by cases p <;> rfl
  exact State.ext_agreeAt (fun p => ((h p s).after i).trans (h p _).symm) (after_pending i _)

theorem step_of_pending_nil {s : State} (h : s.pending = []) : step s = .next (evalHeld s) := by
  rw [step, takeStimulus, h]

theorem step_of_pending_cons {s : State} {st : Stimulus} {rest : List Stimulus} (h : s.pending = st :: rest) :
    step s = exec (decode st) { s with pending := rest } := by
  rw [step, takeStimulus, h]

/-- A run over the first stimuli pending is the fold of their operations. -/
theorem runSteps_of_pending {s : State} {l rest : List Stimulus} (h : s.pending = l ++ rest) :
    runSteps l.length s = .next (afterStimuli l { s with pending := rest }) := by
  induction l generalizing s with
  | nil =>
    rw [List.nil_append] at h
    rw [← h]
    rfl
  | cons st l ih =>
    have hstep : step s = .next { after (decode st) s with pending := l ++ rest } := by
      rw [step_of_pending_cons (rest := l ++ rest) h, exec_eq_after, after_with_pending]
    rw [List.length_cons, runSteps_succ hstep, ih rfl, afterStimuli_cons, after_with_pending _ _ rest]

/-- A step always answers a next state, with the oldest stimulus taken. -/
theorem step_total (s : State) : ∃ t, step s = .next t ∧ t.pending = s.pending.tail := by
  rcases step_cases s with ⟨h, hstep⟩ | ⟨st, rest, h, hstep⟩
  · exact ⟨_, hstep, by rw [evalHeld_pending, h, List.tail_nil]⟩
  · exact ⟨_, hstep, by rw [after_pending, h, List.tail_cons]⟩

/-! ### Settled states -/

/-- The value presented at a place. -/
def inputAt (s : State) : Site → Byte
  | .encIn  => s.enc.encIn
  | .decIn  => s.dec.decIn
  | .tree u => (s.tree u).w

/-- Every output at a place is the function of the value presented there. -/
def SettledAt (s : State) : Site → Prop
  | .encIn  => s.enc.encOut = encCodeword s.enc.encIn
  | .decIn  => (s.dec.decNibble, s.dec.decOk) = decOutputs s.dec.decIn
  | .tree u => (s.tree u).bit = treeValue u (s.tree u).w

theorem settled_iff {s : State} : Settled s ↔ ∀ p, SettledAt s p := by
  constructor
  · rintro ⟨henc, hdec, htree⟩ (_ | _ | u)
    · exact henc
    · exact hdec
    · exact htree u
  · intro h
    exact ⟨h .encIn, h .decIn, fun u => h (.tree u)⟩

theorem agreeAt.inputAt_eq {p : Site} {s t : State} (h : agreeAt p s t) : inputAt s p = inputAt t p := by
  cases p with
  | encIn => exact congrArg EncUnit.encIn h
  | decIn => exact congrArg DecUnit.decIn h
  | tree u => exact congrArg TreeNode.w h

theorem agreeAt.settledAt {p : Site} {s t : State} (h : agreeAt p s t) (ht : SettledAt t p) : SettledAt s p := by
  cases p <;> simp only [agreeAt] at h <;> simp only [SettledAt, h] at ht ⊢ <;> exact ht

/-- At a settled place the input decides everything. -/
theorem agreeAt_of_settledAt {p : Site} {s t : State} (hs : SettledAt s p) (ht : SettledAt t p)
    (h : inputAt s p = inputAt t p) : agreeAt p s t := by
  cases p with
  | encIn =>
    have hout : s.enc.encOut = t.enc.encOut := hs.trans ((congrArg encCodeword h).trans ht.symm)
    exact (congrArg₂ EncUnit.mk h hout :)
  | decIn =>
    have hout := hs.trans ((congrArg decOutputs h).trans ht.symm)
    exact (congrArg₂ (fun c (o : Nibble × Bool) => DecUnit.mk c o.1 o.2) h hout :)
  | tree u =>
    have hbit : (s.tree u).bit = (t.tree u).bit := hs.trans ((congrArg (treeValue u) h).trans ht.symm)
    exact (congrArg₂ TreeNode.mk h hbit :)

theorem inputAt_after_self (i : Instr) (s : State) : inputAt (after i s) (siteOf i) = operandOf i := by
  obtain ⟨x, hi, ho, ha⟩ | ⟨c, hi, ho, ha⟩ | ⟨u, w, hi, ho, ha⟩ := after_cases i <;> rw [hi, ho, ha, inputAt]
  · rw [driveEnc_enc]
  · rw [driveDec_decIn]
  · rw [driveTree_tree_self]

theorem settledAt_after_self (i : Instr) (s : State) : SettledAt (after i s) (siteOf i) := by
  obtain ⟨x, hi, -, ha⟩ | ⟨c, hi, -, ha⟩ | ⟨u, w, hi, -, ha⟩ := after_cases i <;> rw [hi, ha, SettledAt]
  · rw [driveEnc_enc]
  · rw [driveDec_dec]
  · rw [driveTree_tree_self]

theorem SettledAt.after {p : Site} {s : State} (h : SettledAt s p) (i : Instr) : SettledAt (after i s) p := by
  by_cases hp : p = siteOf i
  · exact hp ▸ settledAt_after_self i s
  · exact (agreeAt_after_of_ne hp s).settledAt h

theorem SettledAt.afterStimuli {p : Site} {s : State} (h : SettledAt s p) (l : List Stimulus) :
    SettledAt (afterStimuli l s) p := by
  induction l generalizing s with
  | nil => exact h
  | cons st l ih => exact ih (h.after (decode st))

theorem settledAt_afterStimuli_of_mem {p : Site} {l : List Stimulus} (h : ∃ st ∈ l, st.site = p) (s : State) :
    SettledAt (afterStimuli l s) p := by
  obtain ⟨st, hst, rfl⟩ := h
  obtain ⟨a, b, rfl⟩ := List.append_of_mem hst
  rw [afterStimuli_append, afterStimuli_cons, ← siteOf_decode st]
  exact (settledAt_after_self (decode st) _).afterStimuli b

/-- Presenting again the values that stand on the inputs leaves the inputs. -/
theorem inputAt_afterStimuli_of_held {l : List Stimulus} {s : State} (h : ∀ st ∈ l, st.value = inputAt s st.site) (p : Site) :
    inputAt (afterStimuli l s) p = inputAt s p := by
  induction l generalizing s with
  | nil => rfl
  | cons st l ih =>
    rw [List.forall_mem_cons] at h
    obtain ⟨hst, hl⟩ := h
    have hheld (q : Site) : inputAt (after (decode st) s) q = inputAt s q := by
      by_cases hq : q = siteOf (decode st)
      · rw [hq, inputAt_after_self, operandOf_decode, siteOf_decode, hst]
      · exact (agreeAt_after_of_ne hq s).inputAt_eq
    rw [afterStimuli_cons, ih fun st' hst' => (hl st' hst').trans (hheld _).symm, hheld]

/-! ### The step with nothing presented -/

/-- The places, in the order in which `evalHeld` evaluates them. -/
def allSites : List Site := [.encIn, .decIn, .tree .par1, .tree .par2, .tree .par4, .tree .par0]

theorem mem_allSites (p : Site) : p ∈ allSites := by
  cases p with
  | encIn => decide
  | decIn => decide
  | tree u => cases u <;> decide

/-- The values held on the inputs, as stimuli. -/
def heldStimuli (s : State) : List Stimulus := allSites.map fun p => ⟨p, inputAt s p⟩

/-- An idle step is the run over the values held. -/
theorem evalHeld_eq_afterStimuli (s : State) : evalHeld s = afterStimuli (heldStimuli s) s := by
  simp (disch := decide) only [evalHeld, evalHeldTree, evalTree_eq, evalDec_eq, evalEnc_eq, heldStimuli, allSites,
    List.map_cons, List.map_nil, afterStimuli_cons, afterStimuli_nil, decode, after, inputAt, driveEnc_tree, driveDec_tree,
    driveTree_tree_other]

theorem settled_evalHeld (s : State) : Settled (evalHeld s) := by
  rw [evalHeld_eq_afterStimuli, settled_iff]
  intro p
  exact settledAt_afterStimuli_of_mem ⟨_, List.mem_map_of_mem (mem_allSites p), rfl⟩ s

theorem inputAt_evalHeld (s : State) (p : Site) : inputAt (evalHeld s) p = inputAt s p := by
  rw [evalHeld_eq_afterStimuli]
  refine inputAt_afterStimuli_of_held (fun st hst => ?_) p
  obtain ⟨q, -, rfl⟩ := List.mem_map.mp hst
  rfl

theorem evalHeld_of_settled {s : State} (h : Settled s) : evalHeld s = s :=
  State.ext_agreeAt
    (fun p => agreeAt_of_settledAt (settled_iff.mp (settled_evalHeld s) p) (settled_iff.mp h p) (inputAt_evalHeld s p))
    (evalHeld_pending s)

/-! ### The statements -/

/-- Settles O16: a run is the fold of its operations, and leaving out the trees' changes neither port's unit. -/
theorem treeEvaluationsAreInvisibleInRuns : Obligations.TreeEvaluationsAreInvisibleInRuns := by
  intro s
  refine ⟨_, _, runSteps_of_pending (List.append_nil _).symm, runSteps_of_pending (List.append_nil _).symm, ?_⟩
  have hport (p : Site) (hp : ∀ v, onPort ⟨p, v⟩ = true) :=
    agreeAt_afterStimuli_filter (p := p) (q := onPort) (l := s.pending)
      (fun st _ h hst => by subst hst; exact absurd (hp st.value) (by simp [h])) { s with pending := [] }
  exact ports_eq_iff.mpr ⟨hport .encIn fun _ => rfl, hport .decIn fun _ => rfl⟩

/-- Settles O37: the stimuli before do not reach what the operation leaves, and those after are of other places. -/
theorem resultIsIndependentOfTheSchedule : Obligations.ResultIsIndependentOfTheSchedule := by
  intro s s0 before later rest i hpending hlater
  have hrun := runSteps_of_pending (s := s) (l := before ++ encode i :: later) (rest := rest)
    (by rw [hpending, List.append_assoc, List.cons_append])
  rw [List.length_append, List.length_cons, ← Nat.add_assoc, Nat.add_right_comm] at hrun
  refine ⟨_, after i s0, hrun, exec_eq_after i s0, afterStimuli_pending _ _, ?_⟩
  rw [afterStimuli_append, afterStimuli_cons, decode_encode]
  exact (agreeAt_afterStimuli_of_ne hlater _).trans (agreeAt_after_self i _ s0)

/-- Settles O39: an idle step settles every place; any other settles its own place and leaves the rest. -/
theorem stepKeepsSettled : Obligations.StepKeepsSettled := by
  intro s t hs hstep
  rcases step_cases s with ⟨-, h⟩ | ⟨st, rest, -, h⟩ <;> obtain rfl := Host.Outcome.next.inj (h.symm.trans hstep)
  · exact settled_evalHeld s
  · rw [after_with_pending]
    exact settled_iff.mpr fun p => (settled_iff.mp hs p).after (decode st)

/-- Settles O41, by induction on the number of steps. -/
theorem runNeverStops : Obligations.RunNeverStops := by
  intro k
  induction k with
  | zero => exact fun s => ⟨s, rfl, rfl⟩
  | succ k ih =>
    intro s
    obtain ⟨t, hstep, ht⟩ := step_total s
    obtain ⟨u, hrun, hu⟩ := ih t
    exact ⟨u, (runSteps_succ hstep).trans hrun, by rw [hu, ht, List.drop_tail]⟩

/-- Settles O33: of two `DEC`s only the later one is left. -/
theorem errorLeavesNothingBehind : Obligations.ErrorLeavesNothingBehind := by
  intro s t c d hc
  obtain rfl := exec_next_iff.mp hc
  have h := after_after_of_siteOf_eq (i := .dec c) (j := .dec d) rfl s
  exact ⟨_, exec_eq_after _ _, h ▸ exec_eq_after (.dec d) s⟩

/-- Settles O34: place by place, the two orders leave the same. -/
theorem operationsOfDifferentUnitsCommute : Obligations.OperationsOfDifferentUnitsCommute :=
  fun s i j h => ⟨after i s, after j s, after j (after i s), exec_eq_after i s, exec_eq_after j s, exec_eq_after j _,
    after_comm h s ▸ exec_eq_after i _⟩

/-- Settles O35: the frame of `after`. -/
theorem operationLeavesOtherPlaces : Obligations.OperationLeavesOtherPlaces := by
  intro s t i h
  obtain rfl := exec_next_iff.mp h
  exact ⟨after_pending i s, fun p hp => agreeAt_after_of_ne hp s⟩

/-- Settles O36: the second evaluation is of the same place. -/
theorem evaluatingAgainChangesNothing : Obligations.EvaluatingAgainChangesNothing := by
  intro s i
  have h := after_after_of_siteOf_eq (i := i) (j := i) rfl s
  exact ⟨after i s, exec_eq_after i s, (exec_eq_after i _).trans (congrArg _ h)⟩

/-- Settles O40: an idle step settles every place on the input held there, and a settled state is decided by its inputs. -/
theorem idleStepSettlesAndHolds : Obligations.IdleStepSettlesAndHolds := by
  intro s h
  have hin := inputAt_evalHeld s
  exact ⟨evalHeld s, step_of_pending_nil h, settled_evalHeld s, (evalHeld_pending s).trans h, hin .encIn, hin .decIn,
    fun u => hin (.tree u), evalHeld_of_settled⟩

/-- Settles O50: after a value at every place the two runs agree at every place. -/
theorem nothingSurvivesNewValuesAtEveryPlace : Obligations.NothingSurvivesNewValuesAtEveryPlace := by
  intro s s' now rest hnow
  refine ⟨rfl, _, runSteps_of_pending rfl, ?_⟩
  rw [runSteps_of_pending rfl]
  refine congrArg _ (State.ext_agreeAt (fun p => agreeAt_afterStimuli_of_mem (hnow p) _ _) ?_)
  rw [afterStimuli_pending, afterStimuli_pending]

/-- Settles O38, by evaluation at the input 0x00 of every unit and tree. -/
theorem resetIsSettled : Obligations.ResetIsSettled :=
  ⟨by decide, by rfl, fun u => by cases u <;> rfl⟩

/-- Settles O42: the equation of a step with a stimulus pending. -/
theorem stepEvaluatesThePresentedOperation : Obligations.StepEvaluatesThePresentedOperation :=
  fun _ _ _ h => step_of_pending_cons h

end Sys2Proof.Machine
end

section
/-! PROOFS. Selection by place (spec/30_encoding.md R70) and the model's own written form (log 7): the numbers of the places, one
stimulus in bytes, then sequences. -/

namespace Sys2Proof.Machine

/-! ### The numbers of the places -/

theorem siteOfNumber_siteNumber (p : Site) : siteOfNumber (siteNumber p) = some p := by
  cases p with
  | encIn => rfl
  | decIn => rfl
  | tree u => cases u <;> rfl

/-- A number names a place exactly when it is that place's number. -/
theorem siteOfNumber_eq_some_iff {n : Byte} {p : Site} : siteOfNumber n = some p ↔ siteNumber p = n := by
  constructor
  · intro h
    unfold siteOfNumber at h
    split_ifs at h with h0 h1 h2 h3 h4 h5 <;> cases h <;> exact Eq.symm ‹n = _›
  · rintro rfl
    exact siteOfNumber_siteNumber p

/-- The numbers of places are those below `siteCount`. -/
theorem exists_siteOfNumber_iff (n : Byte) : (∃ p, siteOfNumber n = some p) ↔ n.toNat < siteCount := by
  simp only [siteOfNumber_eq_some_iff]
  constructor
  · rintro ⟨_ | _ | u, rfl⟩
    · decide
    · decide
    · cases u <;> decide
  · intro h
    have hn : n = BitVec.ofNat 8 n.toNat := by simp
    rw [hn]
    match n.toNat, h with
    | 0, _ => exact ⟨.encIn, rfl⟩
    | 1, _ => exact ⟨.decIn, rfl⟩
    | 2, _ => exact ⟨.tree .par1, rfl⟩
    | 3, _ => exact ⟨.tree .par2, rfl⟩
    | 4, _ => exact ⟨.tree .par4, rfl⟩
    | 5, _ => exact ⟨.tree .par0, rfl⟩

/-! ### Bytes -/

theorem encodeStream_cons (i : Instr) (is : List Instr) :
    encodeStream (i :: is) = operandOf i :: siteNumber (siteOf i) :: encodeStream is := rfl

/-- The decoder reads one operation and no more from two bytes, the second of them a place's number, and from nothing else. -/
theorem decodeBytes_eq_ok_nil_iff (bs : List Byte) (i : Instr) :
    decodeBytes bs = .ok (i, []) ↔ ∃ v n p, bs = [v, n] ∧ siteOfNumber n = some p ∧ i = decode ⟨p, v⟩ := by
  constructor
  · intro h
    match bs with
    | [] => cases h
    | [_] => cases h
    | v :: n :: rest =>
      cases hn : siteOfNumber n with
      | none => simp [decodeBytes, stimulusOfBytes, hn] at h
      | some p =>
        obtain ⟨rfl, rfl⟩ : decode ⟨p, v⟩ = i ∧ rest = [] := by simpa [decodeBytes, stimulusOfBytes, hn] using h
        exact ⟨v, n, p, rfl, hn, rfl⟩
  · rintro ⟨v, n, p, rfl, hn, rfl⟩
    simp [decodeBytes, stimulusOfBytes, hn]

theorem wellFormedBytes_iff (bs : List Byte) : wellFormedBytes bs = true ↔ ∃ v n, bs = [v, n] ∧ n.toNat < siteCount := by
  constructor
  · intro h
    match bs with
    | [v, n] => exact ⟨v, n, rfl, of_decide_eq_true h⟩
  · rintro ⟨v, n, rfl, h⟩
    exact decide_eq_true h

/-- The decoder reads a word as an operation exactly when the word stands for the stimulus of that operation. -/
theorem decodeTableWord_eq_some_iff {nbits w : Nat} {i : Instr} :
    decodeTableWord nbits w = some i ↔ ∃ st, stimulusOfWord nbits w = some st ∧ decode st = i := by
  unfold decodeTableWord
  cases stimulusOfWord nbits w <;> simp

theorem withFetchWord_of_stimulusOfWord {nbits w : Nat} {st : Stimulus} (h : stimulusOfWord nbits w = some st) (s : State) :
    s.withFetchWord nbits w = presentNext st s := by
  rw [State.withFetchWord, h]

/-! ### The statements -/

/-- Settles O45, by induction on the operations. -/
theorem decodeOfEncodeIsIdentity : Obligations.DecodeOfEncodeIsIdentity := by
  intro is
  induction is with
  | nil => rfl
  | cons i is ih =>
    rw [encodeStream_cons, decodeStream, siteOfNumber_siteNumber]
    simp only [ih]
    exact congrArg (fun j => Except.ok (j :: is)) (decode_encode i)

/-- Settles O46, by the recursion of `decodeStream`: each pair of bytes read is the written form of what it is read as. -/
theorem bytesReadAreTheWrittenForm : Obligations.BytesReadAreTheWrittenForm := by
  intro bs
  induction bs using decodeStream.induct with
  | case1 =>
    intro is h
    cases h
    rfl
  | case2 v n rest hn =>
    intro is h
    simp [decodeStream, hn] at h
  | case3 v n rest p hn js hjs ih =>
    intro is h
    obtain rfl : decode ⟨p, v⟩ :: js = is := by simpa [decodeStream, hn, hjs] using h
    have hp : siteNumber p = n := siteOfNumber_eq_some_iff.mp hn
    rw [encodeStream_cons, operandOf_decode, siteOf_decode, ih js hjs, hp]
  | case4 v n rest p hn r hr ih =>
    intro is h
    simp [decodeStream, hn, hr] at h
  | case5 v =>
    intro is h
    cases h

/-- Settles O47: both sides say two bytes, the second a place's number. -/
theorem wellFormedBytesAreRead : Obligations.WellFormedBytesAreRead := by
  intro bs
  rw [wellFormedBytes_iff]
  constructor
  · rintro ⟨v, n, rfl, h⟩
    obtain ⟨p, hn⟩ := (exists_siteOfNumber_iff n).mpr h
    exact ⟨_, (decodeBytes_eq_ok_nil_iff _ _).mpr ⟨v, n, p, rfl, hn, rfl⟩⟩
  · rintro ⟨i, h⟩
    obtain ⟨v, n, p, rfl, hn, -⟩ := (decodeBytes_eq_ok_nil_iff bs i).mp h
    exact ⟨v, n, rfl, (exists_siteOfNumber_iff n).mp ⟨p, hn⟩⟩

/-- Settles O43: what is presented next is what the step takes. -/
theorem stepEvaluatesTheWordRead : Obligations.StepEvaluatesTheWordRead := by
  intro s nbits w i h
  obtain ⟨st, hst, rfl⟩ := decodeTableWord_eq_some_iff.mp h
  rw [withFetchWord_of_stimulusOfWord hst]
  exact step_of_pending_cons (presentNext_pending st s)

/-- Settles O44: `encode` and `decode` undo each other. -/
theorem placeSelectsTheOperation : Obligations.PlaceSelectsTheOperation :=
  ⟨fun p v => ⟨siteOf_decode ⟨p, v⟩, operandOf_decode ⟨p, v⟩⟩, decode_encode⟩

/-- Settles O48, each word by evaluation. -/
theorem wordsAreReadAsTheirOperations : Obligations.WordsAreReadAsTheirOperations := by
  refine ⟨?_, ?_, ?_, ?_, ?_, ?_, ?_, ?_⟩ <;> decide

end Sys2Proof.Machine
end

section
/-! PROOFS. The code (spec/30_encoding.md R67; spec/41_encoder.md R114 to R117): the valid codewords are a linear set, one for each
nibble, and `ENC` is the map onto it. -/

namespace Sys2Proof.Machine

theorem isEncFunction_encCodeword : IsEncFunction encCodeword :=
  fun s x => exec_enc x s

/-! ### Nibbles and bytes -/

theorem lowNibble_zext8 (n : Nibble) : lowNibble (zext8 n) = n := by
  apply BitVec.eq_of_getLsbD_eq
  intro i hi
  rw [getLsbD_lowNibble _ i hi, zext8, BitVec.getLsbD_setWidth, decide_eq_true (by omega), Bool.true_and]

/-- A byte 0 to 15 is the byte view of its low nibble (R62). -/
theorem zext8_lowNibble_of_lt {x : Byte} (h : x.toNat < 16) : zext8 (lowNibble x) = x := by
  apply BitVec.eq_of_toNat_eq
  rw [zext8, lowNibble, BitVec.toNat_setWidth, BitVec.extractLsb'_toNat]
  omega

theorem lowNibble_append (hi n : Nibble) : lowNibble (hi ++ n) = n :=
  BitVec.extractLsb'_append_eq_right

theorem lowNibble_xor (x y : Byte) : lowNibble (x ^^^ y) = lowNibble x ^^^ lowNibble y := by
  apply BitVec.eq_of_getLsbD_eq
  intro i hi
  simp only [getLsbD_lowNibble _ i hi, BitVec.getLsbD_xor]

theorem gather_xor (v w : Byte) : gather (v ^^^ w) = gather v ^^^ gather w := by
  obtain ⟨h0, h1, h2, h3⟩ := getLsbD_gather (v ^^^ w)
  obtain ⟨v0, v1, v2, v3⟩ := getLsbD_gather v
  obtain ⟨w0, w1, w2, w3⟩ := getLsbD_gather w
  apply nibble_eq_of_bits <;> simp only [BitVec.getLsbD_xor, *]

theorem mem_allBytes (w : Byte) : w ∈ allBytes :=
  List.mem_map.mpr ⟨w.toNat, List.mem_range.mpr w.isLt, by simp⟩

/-! ### Valid codewords -/

/-- A codeword is valid exactly when no check fails. -/
theorem validCodeword_iff_checks (v : Byte) : validCodeword v = true ↔ syndrome v = 0 ∧ overallCorrect v = true := by
  refine ⟨checks_of_validCodeword, fun ⟨hs, ho⟩ => ?_⟩
  have hbits : ∀ a b c : Bool, BitVec.ofBool a ++ BitVec.ofBool b ++ BitVec.ofBool c = 0#3 →
      a = false ∧ b = false ∧ c = false := by decide
  rw [syndrome_eq_append] at hs
  obtain ⟨h4, h2, h1⟩ := hbits _ _ _ hs
  rw [validCodeword_iff]
  simp only [bne_eq_false_iff_eq] at h1 h2 h4
  exact ⟨h1.symm, h2.symm, h4.symm, (eq_of_beq ho).symm⟩

theorem validCodeword_xor {v w : Byte} (hv : validCodeword v = true) (hw : validCodeword w = true) :
    validCodeword (v ^^^ w) = true := by
  rw [validCodeword_iff_checks] at hw ⊢
  obtain ⟨hs, ho⟩ := checks_xor_of_validCodeword hv w
  exact ⟨hs.trans hw.1, ho.trans hw.2⟩

/-- The data bits of a valid codeword decide its parity bits. -/
theorem eq_of_gather_eq {v w : Byte} (hv : validCodeword v = true) (hw : validCodeword w = true)
    (h : gather v = gather w) : v = w := by
  obtain ⟨v1, v2, v4, v0⟩ := (validCodeword_iff v).mp hv
  obtain ⟨w1, w2, w4, w0⟩ := (validCodeword_iff w).mp hw
  obtain ⟨gv0, gv1, gv2, gv3⟩ := getLsbD_gather v
  obtain ⟨gw0, gw1, gw2, gw3⟩ := getLsbD_gather w
  have h3 : v.getLsbD 3 = w.getLsbD 3 := by rw [← gv0, h, gw0]
  have h5 : v.getLsbD 5 = w.getLsbD 5 := by rw [← gv1, h, gw1]
  have h6 : v.getLsbD 6 = w.getLsbD 6 := by rw [← gv2, h, gw2]
  have h7 : v.getLsbD 7 = w.getLsbD 7 := by rw [← gv3, h, gw3]
  have h1 : v.getLsbD 1 = w.getLsbD 1 := by rw [v1, w1, parity1, parity1, h3, h5, h7]
  have h2 : v.getLsbD 2 = w.getLsbD 2 := by rw [v2, w2, parity2, parity2, h3, h6, h7]
  have h4 : v.getLsbD 4 = w.getLsbD 4 := by rw [v4, w4, parity4, parity4, h5, h6, h7]
  have h0 : v.getLsbD 0 = w.getLsbD 0 := by rw [v0, w0, parity0, parity0, h1, h2, h3, h4, h5, h6, h7]
  apply BitVec.eq_of_getLsbD_eq
  intro i hi
  match i, hi with
  | 0, _ => exact h0
  | 1, _ => exact h1
  | 2, _ => exact h2
  | 3, _ => exact h3
  | 4, _ => exact h4
  | 5, _ => exact h5
  | 6, _ => exact h6
  | 7, _ => exact h7

/-- `ENC` of a valid codeword's nibble is the codeword. -/
theorem encCodeword_of_gather_eq {v x : Byte} (hv : validCodeword v = true) (h : gather v = lowNibble x) :
    encCodeword x = v :=
  eq_of_gather_eq (validCodeword_encCodeword x) hv ((gather_encCodeword x).trans h.symm)

theorem encCodeword_zext8_gather {v : Byte} (hv : validCodeword v = true) : encCodeword (zext8 (gather v)) = v :=
  encCodeword_of_gather_eq hv (lowNibble_zext8 _).symm

/-- `ENC` is linear: the XOR of two codewords is valid and has the XOR of their nibbles (R117). -/
theorem encCodeword_xor (x y : Byte) : encCodeword (x ^^^ y) = encCodeword x ^^^ encCodeword y := by
  refine encCodeword_of_gather_eq
    (validCodeword_xor (validCodeword_encCodeword x) (validCodeword_encCodeword y)) ?_
  rw [gather_xor, gather_encCodeword, gather_encCodeword, lowNibble_xor]

/-- The 16 valid codewords (95_test_vectors.md V1), in the order of `allBytes`. -/
theorem filter_validCodeword : allBytes.filter validCodeword =
    [0x00#8, 0x0F#8, 0x33#8, 0x3C#8, 0x55#8, 0x5A#8, 0x66#8, 0x69#8,
     0x96#8, 0x99#8, 0xA5#8, 0xAA#8, 0xC3#8, 0xCC#8, 0xF0#8, 0xFF#8] := by
  decide +kernel

/-- The minimum distance: every valid codeword but 0 has at least four ones. -/
theorem four_le_weight_of_validCodeword {v : Byte} (hv : validCodeword v = true) (h0 : v ≠ 0#8) : 4 ≤ weight v := by
  have hmem : v ∈ allBytes.filter validCodeword := List.mem_filter.mpr ⟨mem_allBytes v, hv⟩
  have hweights : ∀ w ∈ allBytes.filter validCodeword, w ≠ 0#8 → 4 ≤ weight w := by
    rw [filter_validCodeword]
    simp only [List.forall_mem_cons, List.not_mem_nil, false_imp_iff, implies_true]
    decide
  exact hweights v hmem h0

/-! ### The statements -/

/-- Settles O3: each row is a valid codeword with the row's nibble, and so is what `ENC` drives. -/
theorem encResultTable : Obligations.EncResultTable := by
  intro s hi p hp
  have hrow : validCodeword p.2 = true ∧ gather p.2 = p.1 := by
    clear s hi
    revert p
    simp only [List.forall_mem_cons, List.not_mem_nil, false_imp_iff, implies_true]
    decide
  obtain ⟨hvalid, hgather⟩ := hrow
  rw [exec_enc, encCodeword_of_gather_eq hvalid (hgather.trans (lowNibble_append hi p.1).symm)]

/-- Settles O5: a valid codeword is `ENC` of its own nibble. -/
theorem validCodewordsAreTheEncResults : Obligations.ValidCodewordsAreTheEncResults := by
  refine ⟨encCodeword, isEncFunction_encCodeword, fun w => ⟨fun hw => ⟨_, encCodeword_zext8_gather hw⟩, ?_⟩, ?_⟩
  · rintro ⟨x, rfl⟩
    exact validCodeword_encCodeword x
  · rw [filter_validCodeword]
    rfl

/-- Settles O6: the difference of two codewords is `ENC` of the difference, so distance is weight. -/
theorem encIsLinearWithDistanceFour : Obligations.EncIsLinearWithDistanceFour := by
  refine ⟨encCodeword, isEncFunction_encCodeword, encCodeword_xor, fun x => ?_, fun x y hxy => ?_, fun x => ?_, ?_⟩
  · rw [← gather_eq_dataBits, gather_encCodeword]
  · rw [← encCodeword_xor]
    refine four_le_weight_of_validCodeword (validCodeword_encCodeword _) fun h => hxy ?_
    rw [encCodeword_xor] at h
    exact BitVec.xor_eq_zero_iff.mp h
  · obtain ⟨-, h0F, -⟩ := encCodeword_corner_cases
    rw [encCodeword_xor, h0F]
  · rw [filter_validCodeword]
    decide

end Sys2Proof.Machine
end

section
/-! PROOFS. The parity trees as operations of their own (spec/40_parity_trees.md R90 to R97): a tree changes its own node alone, to
the vector and the XOR over its taps. -/

namespace Sys2Proof.Machine

theorem exec_par1 (w : Byte) (s : State) : exec (.par1 w) s = .next { s with par1 := ⟨w, parity1 w⟩ } :=
  exec_eq_after (.par1 w) s

theorem exec_par2 (w : Byte) (s : State) : exec (.par2 w) s = .next { s with par2 := ⟨w, parity2 w⟩ } :=
  exec_eq_after (.par2 w) s

theorem exec_par4 (w : Byte) (s : State) : exec (.par4 w) s = .next { s with par4 := ⟨w, parity4 w⟩ } :=
  exec_eq_after (.par4 w) s

theorem exec_par0 (w : Byte) (s : State) : exec (.par0 w) s = .next { s with par0 := ⟨w, parity0 w⟩ } :=
  exec_eq_after (.par0 w) s


theorem exec_decode_tree (u : Tree) (w : Byte) (s : State) :
    exec (decode ⟨.tree u, w⟩) s = .next (driveTree u w (treeValue u w) s) := by
  rw [exec_eq_after, after_decode_tree]

theorem treeValue_eq_foldl (u : Tree) (w : Byte) :
    treeValue u w = ((tapsOf u).map fun d => w.getLsbD d).foldl xor false := by
  cases u <;> simp only [treeValue, parity1, parity2, parity4, parity0, tapsOf, List.map_cons, List.map_nil, List.foldl_cons,
    List.foldl_nil, Bool.false_xor]

theorem getLsbD_eq_false_of_and_eq_zero {m k : Byte} (h : m &&& k = 0#8) {j : Nat} (hk : k.getLsbD j = true) :
    m.getLsbD j = false := by
  have hj := congrArg (·.getLsbD j) h
  simpa [hk] using hj

/-- A change that avoids a mask of the tree's taps leaves its value. -/
theorem treeValue_xor_of_and_eq_zero {u : Tree} {m k : Byte} (h : m &&& k = 0#8) (hk : ∀ j ∈ tapsOf u, k.getLsbD j = true)
    (w : Byte) : treeValue u (w ^^^ m) = treeValue u w :=
  treeValue_congr fun j hj => by
    rw [BitVec.getLsbD_xor, getLsbD_eq_false_of_and_eq_zero h (hk j hj), Bool.xor_false]

/-- R97: the Hamming trees on the scattered nibble. -/
theorem parities_scatter (n : Nibble) :
    parity1 (scatter n) = (n.getLsbD 0 ^^ n.getLsbD 1 ^^ n.getLsbD 3) ∧
    parity2 (scatter n) = (n.getLsbD 0 ^^ n.getLsbD 2 ^^ n.getLsbD 3) ∧
    parity4 (scatter n) = (n.getLsbD 1 ^^ n.getLsbD 2 ^^ n.getLsbD 3) := by
  obtain ⟨-, -, -, h3, -, h5, h6, h7⟩ := getLsbD_scatter n
  rw [parity1, parity2, parity4, h3, h5, h6, h7]
  exact ⟨rfl, rfl, rfl⟩

/-- With the Hamming parities substituted, most bits of `PAR0`'s sum cancel. -/
theorem xor_of_parities_and_data : ∀ a b c d : Bool,
    ((a ^^ b ^^ d) ^^ (a ^^ c ^^ d) ^^ a ^^ (b ^^ c ^^ d) ^^ b ^^ c ^^ d) = (a ^^ b ^^ c) := by decide

theorem parity0_encCodeword (x : Byte) :
    parity0 (encCodeword x) = (x.getLsbD 0 ^^ x.getLsbD 1 ^^ x.getLsbD 2) := by
  obtain ⟨h1, h2, h4, -⟩ := (validCodeword_iff _).mp (validCodeword_encCodeword x)
  obtain ⟨h3, h5, h6, h7⟩ := getLsbD_encCodeword_data x
  rw [parity0, h1, h2, h4, parity1, parity2, parity4, h3, h5, h6, h7, xor_of_parities_and_data]

/-! ### The statements -/

/-- Settles O7: the four equations of a valid codeword. -/
theorem treesReturnStoredBitsOfCodeword : Obligations.TreesReturnStoredBitsOfCodeword := by
  intro s x
  obtain ⟨h1, h2, h4, h0⟩ := (validCodeword_iff _).mp (validCodeword_encCodeword x)
  refine ⟨encCodeword x, exec_enc x s, ?_⟩
  rw [h1, h2, h4, h0]
  exact ⟨exec_par1 _ s, exec_par2 _ s, exec_par4 _ s, exec_par0 _ s⟩

/-- Settles O12: the table of the covering rule by evaluation, and each tree as the XOR over its row. -/
theorem treesFollowTheCoveringRule : Obligations.TreesFollowTheCoveringRule := by
  intro s w
  have hexec (u : Tree) : ∃ t : State, exec (decode ⟨.tree u, w⟩) s = .next t ∧
      t.tree u = ⟨w, ((tapsOf u).map fun d => w.getLsbD d).foldl xor false⟩ :=
    ⟨_, exec_decode_tree u w s, by rw [driveTree_tree_self, treeValue_eq_foldl]⟩
  refine ⟨rfl, rfl, ?_, hexec .par0⟩
  simp only [List.forall_mem_cons]
  refine ⟨⟨?_, ?_, ?_, hexec .par1⟩, ⟨?_, ?_, ?_, hexec .par2⟩, ⟨?_, ?_, ?_, hexec .par4⟩, List.forall_mem_nil _⟩ <;> decide

/-- Settles O13: the XOR over the taps is the parity of how many are 1. -/
theorem treeIsOneWhenOddlyManyTapsAreOne : Obligations.TreeIsOneWhenOddlyManyTapsAreOne := by
  intro s u w
  refine ⟨_, exec_decode_tree u w s, ?_, ?_⟩ <;> rw [driveTree_tree_self]
  rw [length_filter_mod_two, ← treeValue_eq_foldr]
  cases treeValue u w
  · exact iff_of_false Bool.false_ne_true (by decide)
  · exact iff_of_true rfl rfl

/-- Settles O15: what a tree's evaluation leaves. -/
theorem treeEvaluationLeavesThePorts : Obligations.TreeEvaluationLeavesThePorts :=
  fun s u w => ⟨_, exec_decode_tree u w s, ports_eq_iff.mpr ⟨driveTree_enc .., driveTree_dec ..⟩, driveTree_pending ..,
    driveTree_tree_self .., fun _ hv => driveTree_tree_other _ _ _ _ hv⟩

/-- Settles O8: the mask 0xA8 covers the taps of `PAR1`. -/
theorem par1ReadsPositions357 : Obligations.Par1ReadsPositions357 := by
  intro s w m hm
  have hxor : parity1 (w ^^^ m) = parity1 w := treeValue_xor_of_and_eq_zero (u := .par1) hm (by decide) w
  exact ⟨parity1 w, rfl, exec_par1 w s, hxor ▸ exec_par1 (w ^^^ m) s, (· ▸ rfl), (· ▸ rfl), (· ▸ rfl)⟩

/-- Settles O9: the mask 0xC8 covers the taps of `PAR2`. -/
theorem par2ReadsPositions367 : Obligations.Par2ReadsPositions367 := by
  intro s w m hm
  have hxor : parity2 (w ^^^ m) = parity2 w := treeValue_xor_of_and_eq_zero (u := .par2) hm (by decide) w
  exact ⟨parity2 w, rfl, exec_par2 w s, hxor ▸ exec_par2 (w ^^^ m) s, (· ▸ rfl), (· ▸ rfl), (· ▸ rfl)⟩

/-- Settles O10: the mask 0xE0 covers the taps of `PAR4`. -/
theorem par4ReadsPositions567 : Obligations.Par4ReadsPositions567 := by
  intro s w m hm
  have hxor : parity4 (w ^^^ m) = parity4 w := treeValue_xor_of_and_eq_zero (u := .par4) hm (by decide) w
  exact ⟨parity4 w, rfl, exec_par4 w s, hxor ▸ exec_par4 (w ^^^ m) s, (· ▸ rfl), (· ▸ rfl), (· ▸ rfl)⟩

/-- Settles O11: the mask 0xFE covers the taps of `PAR0`. -/
theorem par0ReadsPositions1To7 : Obligations.Par0ReadsPositions1To7 := by
  intro s w m hm
  have hxor : parity0 (w ^^^ m) = parity0 w := treeValue_xor_of_and_eq_zero (u := .par0) hm (by decide) w
  exact ⟨parity0 w, rfl, exec_par0 w s, hxor ▸ exec_par0 (w ^^^ m) s,
    (· ▸ rfl), (· ▸ rfl), (· ▸ rfl), (· ▸ rfl), (· ▸ rfl)⟩

/-- Settles O14: the trees on `scatter`, and `PAR0` on the codeword with its parities substituted. -/
theorem treesOfTheNibble : Obligations.TreesOfTheNibble := by
  intro s n
  obtain ⟨h1, h2, h4⟩ := parities_scatter n
  have h0 := parity0_encCodeword (zext8 n)
  rw [← getLsbD_lowNibble _ 0 (by decide), ← getLsbD_lowNibble _ 1 (by decide), ← getLsbD_lowNibble _ 2 (by decide),
    lowNibble_zext8] at h0
  refine ⟨encCodeword (zext8 n), exec_enc _ s, ?_⟩
  rw [← h1, ← h2, ← h4, ← h0]
  exact ⟨exec_par1 _ s, exec_par2 _ s, exec_par4 _ s, exec_par0 _ s⟩

end Sys2Proof.Machine
end

section
/-! PROOFS. `DEC` beyond its four cases (spec/42_decoder.md R135 to R142; spec/70_reset_and_hazards.md R198): the checks of an error
pattern in closed form, and `DEC` of a codeword with errors as `DEC` of the errors alone with the codeword's nibble added. Counts
over the 256 bytes are evaluated. -/

namespace Sys2Proof.Machine

theorem isDecFunction_decResult : IsDecFunction decResult :=
  fun s _ => ⟨fun _ h => exec_dec_of_decResult_eq_ok h s, fun h => exec_dec_of_decResult_eq_err h s⟩

/-! ### The checks in closed form (R138) -/

/-- Each bit of the syndrome is the XOR of the positions whose number has that bit. -/
theorem syndrome_eq_append_getLsbD (c : Byte) :
    syndrome c =
      BitVec.ofBool (c.getLsbD 4 ^^ c.getLsbD 5 ^^ c.getLsbD 6 ^^ c.getLsbD 7) ++
      BitVec.ofBool (c.getLsbD 2 ^^ c.getLsbD 3 ^^ c.getLsbD 6 ^^ c.getLsbD 7) ++
      BitVec.ofBool (c.getLsbD 1 ^^ c.getLsbD 3 ^^ c.getLsbD 5 ^^ c.getLsbD 7) := by
  rw [syndrome_eq_append, Bool.xor_comm _ (c.getLsbD 4), Bool.xor_comm _ (c.getLsbD 2), Bool.xor_comm _ (c.getLsbD 1)]
  simp only [parity1, parity2, parity4, Bool.xor_assoc]

theorem toNat_append_ofBool : ∀ a b c : Bool,
    (BitVec.ofBool a ++ BitVec.ofBool b ++ BitVec.ofBool c).toNat = 4 * a.toNat + 2 * b.toNat + c.toNat := by decide

theorem append_ofBool_eq_zero_iff : ∀ a b c : Bool,
    BitVec.ofBool a ++ BitVec.ofBool b ++ BitVec.ofBool c = 0#3 ↔ (c || b || a) = false := by decide

theorem overallCorrect_iff_xor_bits (c : Byte) : overallCorrect c = true ↔
    (c.getLsbD 0 ^^ c.getLsbD 1 ^^ c.getLsbD 2 ^^ c.getLsbD 3 ^^ c.getLsbD 4 ^^ c.getLsbD 5 ^^ c.getLsbD 6 ^^ c.getLsbD 7) =
      false := by
  have hxor : (c.getLsbD 0 ^^ c.getLsbD 1 ^^ c.getLsbD 2 ^^ c.getLsbD 3 ^^ c.getLsbD 4 ^^ c.getLsbD 5 ^^ c.getLsbD 6 ^^
      c.getLsbD 7) = (c.getLsbD 0 ^^ parity0 c) := by simp only [parity0, Bool.xor_assoc]
  rw [hxor, overallCorrect, beq_iff_eq, bne_eq_false_iff_eq, eq_comm]

/-- The overall check holds exactly when the number of ones is even. -/
theorem overallCorrect_iff_weight (c : Byte) : overallCorrect c = true ↔ weight c % 2 = 0 := by
  rw [overallCorrect_iff_xor_bits, weight_mod_two, Bool.toNat_eq_zero]

theorem overallCorrect_eq_false_iff_weight (c : Byte) : overallCorrect c = false ↔ weight c % 2 = 1 := by
  rw [← Bool.not_eq_true, overallCorrect_iff_weight]
  omega

/-- `dec_ok` is 1 in cases 1, 2 and 3. -/
theorem evalDec_decOk_iff (c : Byte) (s : State) :
    (evalDec c s).dec.decOk = true ↔ syndrome c = 0 ∨ overallCorrect c = false := by
  rw [← Bool.not_eq_false, evalDec_decOk_eq_false_iff, decResult_eq_err_iff, not_and_or, not_not, Bool.not_eq_true]

/-! ### The checks of an error pattern (R139) -/

/-- The syndrome of a pattern is the XOR of the numbers of its positions. -/
theorem toNat_syndrome_eq_errorSyndrome : ∀ e : Byte, (syndrome e).toNat = errorSyndrome e := by
  decide +kernel

theorem syndrome_eq_zero_iff_errorSyndrome (e : Byte) : syndrome e = 0 ↔ errorSyndrome e = 0 := by
  rw [← toNat_syndrome_eq_errorSyndrome, ← BitVec.toNat_inj]
  rfl

/-- Two flipped positions have distinct numbers, so their XOR is not 0. -/
theorem errorSyndrome_ne_zero_of_weight_eq_two {e : Byte} (h : weight e = 2) : errorSyndrome e ≠ 0 := by
  obtain ⟨i, j, hij⟩ := List.length_eq_two.mp h
  have hnodup : (onesOf e).Nodup := List.Nodup.filter _ List.nodup_range
  rw [hij] at hnodup
  rw [errorSyndrome, hij]
  intro h0
  have heq : i = j := by simpa [Nat.xor_eq_zero_iff] using h0
  simp [heq] at hnodup

/-! ### `DEC` is linear over the codewords -/

/-- A result with `m` added to its nibble. -/
def DecResult.add (m : Nibble) : DecResult → DecResult
  | .ok n => .ok (m ^^^ n)
  | .err  => .err

/-- With error pattern `e` on a valid codeword, `DEC` does what it does on `e` alone, the codeword's nibble added. -/
theorem decResult_xor_of_validCodeword {v : Byte} (hv : validCodeword v = true) (e : Byte) :
    decResult (v ^^^ e) = (decResult e).add (gather v) := by
  obtain ⟨hs, ho⟩ := checks_xor_of_validCodeword hv e
  by_cases h : syndrome e = 0
  · rw [decResult_of_syndrome_eq_zero (hs.trans h), decResult_of_syndrome_eq_zero h, gather_xor, DecResult.add]
  · have h' : syndrome (v ^^^ e) ≠ 0 := hs ▸ h
    cases hoe : overallCorrect e
    · rw [decResult_of_overallCorrect_eq_false h' (ho.trans hoe), decResult_of_overallCorrect_eq_false h hoe, hs,
        flipBit, BitVec.xor_assoc, gather_xor, DecResult.add, flipBit]
    · rw [(decResult_eq_err_iff _).mpr ⟨h', ho.trans hoe⟩, (decResult_eq_err_iff e).mpr ⟨h, hoe⟩, DecResult.add]

theorem DecResult.add_eq_ok_iff (m : Nibble) (r : DecResult) : r.add m = .ok m ↔ r = .ok 0#4 := by
  cases r with
  | ok n =>
    rw [DecResult.add, DecResult.ok.injEq, DecResult.ok.injEq]
    exact ⟨fun h => BitVec.xor_right_inj m |>.mp (h.trans BitVec.xor_zero.symm), fun h => h ▸ BitVec.xor_zero⟩
  | err => exact ⟨fun h => (by cases h), fun h => (by cases h)⟩

theorem DecResult.add_eq_err_iff (m : Nibble) (r : DecResult) : r.add m = .err ↔ r = .err := by
  cases r with
  | ok n => exact ⟨fun h => (by cases h), fun h => (by cases h)⟩
  | err => exact Iff.rfl

theorem decResult_encCodeword_xor_eq_ok_iff (x e : Byte) :
    decResult (encCodeword x ^^^ e) = .ok (lowNibble x) ↔ decResult e = .ok 0#4 := by
  rw [decResult_xor_of_validCodeword (validCodeword_encCodeword x), gather_encCodeword, DecResult.add_eq_ok_iff]

theorem decResult_encCodeword_xor_eq_err_iff (x e : Byte) :
    decResult (encCodeword x ^^^ e) = .err ↔ decResult e = .err := by
  rw [decResult_xor_of_validCodeword (validCodeword_encCodeword x), DecResult.add_eq_err_iff]

/-- R142's table for the codeword 0x00. -/
theorem outcomes_by_weight : ∀ r ∈ [(0, 1, 0, 0), (1, 8, 0, 0), (2, 0, 0, 28), (3, 0, 56, 0), (4, 0, 14, 56), (5, 0, 56, 0),
      (6, 0, 0, 28), (7, 0, 8, 0), (8, 0, 1, 0)],
    ((allBytes.filter fun e => weight e == r.1).filter fun e => decResult e == .ok 0#4).length = r.2.1 ∧
    ((allBytes.filter fun e => weight e == r.1).filter fun e => decResult e != .ok 0#4 && decResult e != .err).length = r.2.2.1 ∧
    ((allBytes.filter fun e => weight e == r.1).filter fun e => decResult e == .err).length = r.2.2.2 := by
  decide +kernel

/-- Only 0x00 and its eight neighbours are answered with the nibble 0. -/
theorem weight_le_one_of_decResult_eq_ok_zero : ∀ e : Byte, decResult e = .ok 0#4 → weight e ≤ 1 := by
  decide +kernel

/-! ### The statements -/

/-- Settles O20: flipping the position the syndrome names adds that position's data bit, if it has one. -/
theorem decCorrectsByTheSyndromeTable : Obligations.DecCorrectsByTheSyndromeTable := by
  refine ⟨fun s c ho p hp hs => ?_, decResult, isDecFunction_decResult, by decide +kernel, by decide +kernel⟩
  have hrow : p.1 ≠ 0 ∧ gather (oneHot 8 p.1) = p.2 := by
    clear hs
    revert p
    simp only [List.forall_mem_cons, List.not_mem_nil, false_imp_iff, implies_true]
    decide
  obtain ⟨hne, hbit⟩ := hrow
  have hsyn : syndrome c ≠ 0 := fun h => hne (hs ▸ (syndrome_eq_zero_iff c).mp h)
  have hresult := decResult_of_overallCorrect_eq_false hsyn ho
  rw [toNat_syndrome, hs, flipBit, gather_xor, hbit, gather_eq_dataBits] at hresult
  exact exec_dec_of_decResult_eq_ok hresult s

/-- Settles O22: the checks as XORs of positions, and `dec_ok` from the two of them. -/
theorem decChecksHaveTheClosedForm : Obligations.DecChecksHaveTheClosedForm := by
  intro s c
  have hsyn := syndrome_eq_append_getLsbD c
  have hover := overallCorrect_iff_xor_bits c
  refine ⟨_, _, _, _, evalDec c s, rfl, rfl, rfl, rfl, hsyn, hsyn ▸ toNat_append_ofBool _ _ _, hover,
    exec_eq_after (.dec c) s, driveDec_decIn .., ?_⟩
  rw [Bool.eq_iff_iff, evalDec_decOk_iff, hsyn, Bool.or_eq_true, Bool.not_eq_true', ← Bool.not_eq_true (overallCorrect c),
    hover, Bool.not_eq_false]
  exact or_congr_left (append_ofBool_eq_zero_iff _ _ _)

/-- Settles O23: the checks of the error alone. -/
theorem decChecksDependOnTheErrorAlone : Obligations.DecChecksDependOnTheErrorAlone := by
  intro s v e hv
  obtain ⟨hs, ho⟩ := checks_xor_of_validCodeword hv e
  refine ⟨hs ▸ toNat_syndrome_eq_errorSyndrome e, ho ▸ overallCorrect_iff_weight e, errorSyndrome_ne_zero_of_weight_eq_two,
    evalDec (v ^^^ e) s, exec_eq_after (.dec (v ^^^ e)) s, ?_⟩
  rw [evalDec_decOk_iff, hs, ho, syndrome_eq_zero_iff_errorSyndrome, overallCorrect_eq_false_iff_weight]

/-- Settles O25: the two steps are `ENC` and `DEC` of what it drives. -/
theorem roundTripInTwoSteps : Obligations.RoundTripInTwoSteps := by
  intro s x rest
  have hdec : decResult (encCodeword x) = .ok (lowNibble x) :=
    gather_encCodeword x ▸ decResult_of_validCodeword (validCodeword_encCodeword x)
  have hfirst : step { s with pending := ⟨.encIn, x⟩ :: ⟨.decIn, encCodeword x⟩ :: rest } =
      .next { s with enc := ⟨x, encCodeword x⟩, pending := ⟨.decIn, encCodeword x⟩ :: rest } := by
    rw [step_of_pending_cons rfl]
    exact exec_enc x _
  have hsecond : step { s with enc := ⟨x, encCodeword x⟩, pending := ⟨.decIn, encCodeword x⟩ :: rest } =
      .next { s with enc := ⟨x, encCodeword x⟩, dec := ⟨encCodeword x, lowNibble x, true⟩, pending := rest } := by
    rw [step_of_pending_cons rfl]
    exact exec_dec_of_decResult_eq_ok hdec _
  exact ⟨encCodeword x, exec_enc x s, (runSteps_succ hfirst).trans (runSteps_succ hsecond)⟩

/-- Settles O26: the counts for every codeword are those for 0x00. -/
theorem outcomesByNumberOfFlippedBits : Obligations.OutcomesByNumberOfFlippedBits := by
  refine ⟨encCodeword, decResult, isEncFunction_encCodeword, isDecFunction_decResult, fun x => ?_⟩
  have hok (e : Byte) : (decResult (encCodeword x ^^^ e) == .ok (lowNibble x)) = (decResult e == .ok 0#4) :=
    Bool.eq_iff_iff.mpr (by simp only [beq_iff_eq, decResult_encCodeword_xor_eq_ok_iff])
  have herr (e : Byte) : (decResult (encCodeword x ^^^ e) == .err) = (decResult e == .err) :=
    Bool.eq_iff_iff.mpr (by simp only [beq_iff_eq, decResult_encCodeword_xor_eq_err_iff])
  simp only [bne, hok, herr]
  exact outcomes_by_weight

/-- Settles O27: the error alone decides between an answer and an error, and at weight 3 or more the answer is not the nibble. -/
theorem miscorrectionBeyondTwoFlips : Obligations.MiscorrectionBeyondTwoFlips := by
  intro s x e hw
  have hne : decResult (encCodeword x ^^^ e) ≠ .ok (lowNibble x) := by
    rw [Ne, decResult_encCodeword_xor_eq_ok_iff]
    intro h
    have := weight_le_one_of_decResult_eq_ok_zero e h
    omega
  have herr := (decResult_encCodeword_xor_eq_err_iff x e).trans (decResult_eq_err_iff e)
  refine ⟨encCodeword x, exec_enc x s, fun hanswers => ?_, fun heven hinvalid => ?_⟩
  · cases h : decResult (encCodeword x ^^^ e) with
    | ok n => exact ⟨n, fun hn => hne (hn ▸ h), exec_dec_of_decResult_eq_ok h s⟩
    | err =>
      obtain ⟨hsyn, hover⟩ := herr.mp h
      rcases hanswers with hodd | hvalid
      · have heven := (overallCorrect_iff_weight e).mp hover
        omega
      · exact absurd (checks_of_validCodeword hvalid).1 hsyn
  · have hover := (overallCorrect_iff_weight e).mpr heven
    have hsyn : syndrome e ≠ 0 := fun h => by simp [(validCodeword_iff_checks e).mpr ⟨h, hover⟩] at hinvalid
    exact exec_dec_of_decResult_eq_err (herr.mpr ⟨hsyn, hover⟩) s

/-- Settles O30: the byte view has the nibble's bits and zeros. -/
theorem byteViewReturnsTheNibble : Obligations.ByteViewReturnsTheNibble := by
  refine ⟨fun n i hi => ?_, fun s x hx => ?_⟩
  · rw [zext8, BitVec.getLsbD_setWidth, BitVec.getLsbD_of_ge n i hi, Bool.and_false]
  · have hv := validCodeword_encCodeword x
    refine ⟨encCodeword x, gather (encCodeword x), exec_enc x s,
      exec_dec_of_decResult_eq_ok (decResult_of_validCodeword hv) s, ?_⟩
    rw [gather_encCodeword, zext8_lowNibble_of_lt hx]

/-- Settles O31: both answers are the codeword's nibble, and `ENC` of that is the codeword again. -/
theorem correctionIsSilent : Obligations.CorrectionIsSilent := by
  refine ⟨encCodeword, isEncFunction_encCodeword, fun s v i hv hi => ⟨gather v, ?_, ?_, ?_⟩⟩
  · exact exec_dec_of_decResult_eq_ok (decResult_of_validCodeword hv) s
  · exact exec_dec_of_decResult_eq_ok (decResult_flipBit_of_validCodeword hv hi) s
  · rw [encCodeword_zext8_gather hv]
    refine ⟨rfl, fun h => ?_⟩
    have hover := (checks_flipBit_of_validCodeword hv hi).2
    rw [← h, (checks_of_validCodeword hv).2] at hover
    exact Bool.noConfusion hover

/-- Settles O28, each count by evaluation over the 256 bytes. -/
theorem decCasesAndAnswersAreCounted : Obligations.DecCasesAndAnswersAreCounted := by
  refine ⟨decResult, isDecFunction_decResult, ?_, ?_, ?_, ?_, ?_⟩ <;> decide +kernel

/-- What an entry of the table stands for. -/
def entryResult (r : Nat) : DecResult := if r < 16 then .ok (BitVec.ofNat 4 r) else .err

/-- Every entry of the table is at most 16 and is what `DEC` answers. -/
theorem decResult_eq_decTable : ∀ hi < 16, ∀ lo < 16,
    (decTable.getD hi []).getD lo 17 ≤ 16 ∧
    decResult (BitVec.ofNat 8 (16 * hi + lo)) = entryResult ((decTable.getD hi []).getD lo 17) := by
  decide +kernel

/-- Settles O29, entry by entry. -/
theorem decResultTable : Obligations.DecResultTable := by
  intro s hi lo hhi hlo
  obtain ⟨hle, hresult⟩ := decResult_eq_decTable hi hhi lo hlo
  refine ⟨_, BitVec.ofNat 8 (16 * hi + lo), rfl, ?_, hle, fun hr => ?_, fun hr => ?_⟩
  · rw [BitVec.toNat_ofNat]
    omega
  · rw [entryResult, if_pos hr] at hresult
    exact exec_dec_of_decResult_eq_ok hresult s
  · rw [entryResult, if_neg (by omega)] at hresult
    exact exec_dec_of_decResult_eq_err hresult s

end Sys2Proof.Machine
end
